-- ==== Sys2Proof/Word.lean ====
section
/-! DEFINITION. The one word of the coolcpu CORE: the byte (00_scope.md R4 "XLEN", R5, R6). -/

namespace Sys2Proof

/-- A register, an address, an opcode, an operand or a datum: XLEN = 8 bits, unsigned (R4, R5).
`+` and `-` on it are the spec's `+8` and `-8`, modulo 256 (R6). -/
abbrev Byte := BitVec 8

end Sys2Proof
end

