-- ==== Sys2Proof/Machine/Params.lean ====
section
/-! DEFINITION. The configuration: the named constants of 00_scope.md R4 and the size and cost columns of 30_encoding.md R75, each
"a configuration field with this value as default" (R4), because "the literals are unaudited" (N1): UNVERIFIED, log 8.
The model reads every one of these numbers from here. The instance's own parameters (VARIANT,
ROM_IMAGE, RAM_INIT, MAGIC, SECRET_PAYLOAD, CYCLE_SAMPLE) are in Config.lean, Machine/State.lean and Machine/Construct.lean. -/

namespace Sys2Proof

/-- The named constants of R4. -/
structure Params where
  /-- XLEN: the width in bits of every register, address and datum. The type `Byte` has it (`byte_width`). -/
  xlen : Nat := 8
  /-- ROM_BASE: the first ROM address. -/
  romBase : Nat := 0x00
  /-- ROM_SIZE, in bytes. -/
  romSize : Nat := 0x80
  /-- RAM_BASE, "= ROM_SIZE". -/
  ramBase : Nat := romSize
  /-- RAM_SIZE, in bytes. -/
  ramSize : Nat := 0x70
  /-- ADDR_OUTPUT. -/
  addrOutput : Byte := 0xF1
  /-- ADDR_DST (extended). -/
  addrDst : Byte := 0xF2
  /-- ADDR_SRC (extended). -/
  addrSrc : Byte := 0xF3
  /-- ADDR_GO (extended). -/
  addrGo : Byte := 0xF4
  /-- ADDR_POKE (extended). -/
  addrPoke : Byte := 0xF5
  /-- POKE_START: the expected index after GO. -/
  pokeStart : Byte := 5
  /-- POKE_GAP: the exact cycle distance between consecutive accepted pokes. -/
  pokeGap : Nat := 36
  /-- COPY_LEN: the length of the block the engine writes. -/
  copyLen : Nat := 32
  deriving DecidableEq, Repr

/-- The size and cost columns of one row of R75. -/
structure OpcodeRow where
  /-- The length in bytes. -/
  size : Nat
  /-- What retiring adds to `cycle`. -/
  cost : Nat
  deriving DecidableEq, Repr

/-- The size and cost columns of R75, row by row. JZ and JNZ have one cost, taken or not: the spec's decision D8, log 8. -/
structure OpcodeColumns where
  nop : OpcodeRow := { size := 1, cost := 1 }
  ldaAddr : OpcodeRow := { size := 2, cost := 1 }
  ldbAddr : OpcodeRow := { size := 2, cost := 1 }
  ldcAddr : OpcodeRow := { size := 2, cost := 1 }
  ldaInd : OpcodeRow := { size := 1, cost := 2 }
  ldbInd : OpcodeRow := { size := 1, cost := 2 }
  ldcInd : OpcodeRow := { size := 1, cost := 2 }
  staAddr : OpcodeRow := { size := 2, cost := 1 }
  stbAddr : OpcodeRow := { size := 2, cost := 1 }
  stcAddr : OpcodeRow := { size := 2, cost := 1 }
  staInd : OpcodeRow := { size := 1, cost := 2 }
  stbInd : OpcodeRow := { size := 1, cost := 2 }
  stcInd : OpcodeRow := { size := 1, cost := 2 }
  inc : OpcodeRow := { size := 1, cost := 2 }
  dec : OpcodeRow := { size := 1, cost := 2 }
  con : OpcodeRow := { size := 2, cost := 1 }
  jp : OpcodeRow := { size := 2, cost := 2 }
  jz : OpcodeRow := { size := 2, cost := 3 }
  jnz : OpcodeRow := { size := 2, cost := 3 }
  swb : OpcodeRow := { size := 1, cost := 1 }
  swc : OpcodeRow := { size := 1, cost := 1 }
  hcf : OpcodeRow := { size := 1, cost := 1 }
  deriving DecidableEq, Repr

/-- The constants of this machine: the spec's, every one the default. A different audit changes a field here alone. -/
abbrev params : Params := {}

/-- The columns of this machine: the spec's, every one the default. -/
def opcodeColumns : OpcodeColumns := {}

namespace Machine

/-- The address lies in ROM, [ROM_BASE, ROM_BASE + ROM_SIZE) (20_memory.md R40). -/
abbrev InRom (x : Nat) : Prop := params.romBase ≤ x ∧ x < params.romBase + params.romSize

/-- The address lies in RAM, [RAM_BASE, RAM_BASE + RAM_SIZE) (20_memory.md R40). -/
abbrev InRam (x : Nat) : Prop := params.ramBase ≤ x ∧ x < params.ramBase + params.ramSize

/-- The address is one of the 240 bytes of storage (20_memory.md R41). -/
abbrev InStorage (x : Nat) : Prop := InRom x ∨ InRam x

end Machine

end Sys2Proof
end

