-- ==== Sys2Proof/Config.lean ====
section
/-! DEFINITION. What is fixed for one machine instance, and the two values the spec leaves OPEN (00_scope.md R4).
The named constants of R4 and the size and cost columns are the configuration records of Machine/Params.lean. -/

namespace Sys2Proof

/-- VARIANT, a construction parameter (R1, R4). -/
inductive Variant where
  /-- CPU, ROM, RAM, OUTPUT. -/
  | base
  /-- The base plus the block transfer engine. -/
  | extended
  deriving DecidableEq, Repr

/-- CYCLE_SAMPLE (R4, R82): which value of the cycle counter a device write observes.
The spec's decision D5 is `pre`; "a model should keep it switchable" (R4), so both readings are here. UNVERIFIED, log 7. -/
inductive CycleSample where
  /-- The value at the start of the storing step. -/
  | pre
  /-- That value plus the storing instruction's cost. -/
  | post
  deriving DecidableEq, Repr

/-- COPY_LEN as a length of vectors (R4). -/
abbrev Config.copyLen : Nat := params.copyLen

/-- MAGIC at reset: a free byte, "a draw; OPEN" (R4, R27, R402; 93_implementation_defined.md U3). Free value, log 6. -/
opaque Config.magic : Byte

/-- SECRET_PAYLOAD at reset: 32 free bytes, "OPEN, content not in source" (R4, R230; U4). Free value, log 6. -/
opaque Config.secretPayload : Vector Byte Config.copyLen

end Sys2Proof
end

