-- ==== Sys2Proof/Syntax.lean ====
section
/-! DEFINITION. The instructions: one constructor per row of spec/opcode_table.json (30_encoding.md R75).
`Addr` in a name is the direct form or the jump target, `Ind` the form `[A]`; a format F2 instruction carries its operand
byte `opnd`, used unmodified (R73). -/

namespace Sys2Proof

/-- The 22 instructions (R75). -/
inductive Instr where
  /-- 0x00 NOP (R100). -/
  | nop
  /-- 0x01 LDA addr (R101). -/
  | ldaAddr (opnd : Byte)
  /-- 0x02 LDB addr (R102). -/
  | ldbAddr (opnd : Byte)
  /-- 0x03 LDC addr (R103). -/
  | ldcAddr (opnd : Byte)
  /-- 0x04 LDA [A] (R104). -/
  | ldaInd
  /-- 0x05 LDB [A] (R105). -/
  | ldbInd
  /-- 0x06 LDC [A] (R106). -/
  | ldcInd
  /-- 0x11 STA addr (R120). -/
  | staAddr (opnd : Byte)
  /-- 0x12 STB addr (R121). -/
  | stbAddr (opnd : Byte)
  /-- 0x13 STC addr (R122). -/
  | stcAddr (opnd : Byte)
  /-- 0x14 STA [A] (R123). -/
  | staInd
  /-- 0x15 STB [A] (R124). -/
  | stbInd
  /-- 0x16 STC [A] (R125). -/
  | stcInd
  /-- 0x20 INC (R140). -/
  | inc
  /-- 0x21 DEC (R141). -/
  | dec
  /-- 0x22 CON imm (R142). -/
  | con (opnd : Byte)
  /-- 0x30 JP addr (R150). -/
  | jp (opnd : Byte)
  /-- 0x31 JZ addr (R151). -/
  | jz (opnd : Byte)
  /-- 0x32 JNZ addr (R152). -/
  | jnz (opnd : Byte)
  /-- 0x40 SWB (R160). -/
  | swb
  /-- 0x41 SWC (R161). -/
  | swc
  /-- 0xFF HCF (R170). -/
  | hcf
  deriving DecidableEq, Repr

end Sys2Proof
end

