-- ==== Sys2Proof/WellFormed.lean ====
section
/-! DEFINITION. What is checked of the inputs: an instruction (nothing to check), a ROM image, a RAM seed. -/

namespace Sys2Proof

/-- Every term of `Instr` is well-formed: "The operand byte of a format F2 instruction has no illegal values at decode
time: every value 0x00 to 0xFF is accepted as an operand" (30_encoding.md R77). The type holds the rest of the check:
an operand is one byte. -/
def Instr.wf (_ : Instr) : Bool := true

/-- "An image longer than 128 bytes is not accepted by the CORE" (70_reset_and_hazards.md R401): at most ROM_SIZE bytes. -/
def romImageOk (image : List Byte) : Bool := decide (image.length ≤ params.romSize)

/-- RAM_INIT has 112 bytes, RAM_SIZE (00_scope.md R4); a shorter list is a seed of the first bytes, the rest 0x00 (log 17). -/
def ramInitOk (seed : List Byte) : Bool := decide (seed.length ≤ params.ramSize)

end Sys2Proof
end

