-- ==== Sys2Proof/Decode.lean ====
section
/-! DEFINITION. Decoding bytes to instructions, total, refusing by name; then the encoder, and the size and cost of an instruction.
30_encoding.md R70 to R77: an opcode is a whole byte, matched whole (R72); the opcode alone decides the length (R71). -/

namespace Sys2Proof

/-- Why bytes are not an instruction. -/
inductive DecodeError where
  /-- There is no byte to decode. -/
  | noBytes
  /-- The opcode byte is none of the 22 (R76). -/
  | illegalOpcode (op : Byte)
  /-- The opcode is of format F2 and its operand byte has not been given (R71: the decoder "only then knows whether to
  read a second byte"). -/
  | missingOperand
  deriving DecidableEq, Repr

/-- The one-byte instructions, format F1 (R71, R75). -/
def decodeF1 (op : Byte) : Option Instr :=
  match op.toNat with
  | 0x00 => some .nop
  | 0x04 => some .ldaInd
  | 0x05 => some .ldbInd
  | 0x06 => some .ldcInd
  | 0x14 => some .staInd
  | 0x15 => some .stbInd
  | 0x16 => some .stcInd
  | 0x20 => some .inc
  | 0x21 => some .dec
  | 0x40 => some .swb
  | 0x41 => some .swc
  | 0xFF => some .hcf
  | _ => none

/-- The two-byte instructions, format F2, as the instruction each operand byte gives (R71, R73, R75).
Which code of a triple is which register is the spec's decision D1 (R74), UNVERIFIED, log 8. -/
def decodeF2 (op : Byte) : Option (Byte → Instr) :=
  match op.toNat with
  | 0x01 => some .ldaAddr
  | 0x02 => some .ldbAddr
  | 0x03 => some .ldcAddr
  | 0x11 => some .staAddr
  | 0x12 => some .stbAddr
  | 0x13 => some .stcAddr
  | 0x22 => some .con
  | 0x30 => some .jp
  | 0x31 => some .jz
  | 0x32 => some .jnz
  | _ => none

/-- The instruction at the head of `bytes`, and the bytes after it. -/
def decode (bytes : List Byte) : Except DecodeError (Instr × List Byte) :=
  match bytes with
  | [] => .error .noBytes
  | op :: rest =>
    match decodeF1 op with
    | some i => .ok (i, rest)
    | none =>
      match decodeF2 op, rest with
      | some make, opnd :: rest' => .ok (make opnd, rest')
      | some _, [] => .error .missingOperand
      | none, _ => .error (.illegalOpcode op)

/-- The opcode column of R75. -/
def Instr.opcode : Instr → Byte
  | .nop => 0x00
  | .ldaAddr _ => 0x01
  | .ldbAddr _ => 0x02
  | .ldcAddr _ => 0x03
  | .ldaInd => 0x04
  | .ldbInd => 0x05
  | .ldcInd => 0x06
  | .staAddr _ => 0x11
  | .stbAddr _ => 0x12
  | .stcAddr _ => 0x13
  | .staInd => 0x14
  | .stbInd => 0x15
  | .stcInd => 0x16
  | .inc => 0x20
  | .dec => 0x21
  | .con _ => 0x22
  | .jp _ => 0x30
  | .jz _ => 0x31
  | .jnz _ => 0x32
  | .swb => 0x40
  | .swc => 0x41
  | .hcf => 0xFF

/-- The operand byte, where the format has one (R70, R73). -/
def Instr.operand : Instr → Option Byte
  | .ldaAddr x | .ldbAddr x | .ldcAddr x | .staAddr x | .stbAddr x | .stcAddr x
  | .con x | .jp x | .jz x | .jnz x => some x
  | .nop | .ldaInd | .ldbInd | .ldcInd | .staInd | .stbInd | .stcInd | .inc | .dec | .swb | .swc | .hcf => none

/-- The bytes of an instruction, the opcode at the lower address (R50, R70). -/
def encode (i : Instr) : List Byte := i.opcode :: i.operand.toList

/-- The row of the size and cost columns that an instruction is of: by its opcode alone (R71, R81). -/
def Instr.row : Instr → OpcodeRow
  | .nop => opcodeColumns.nop
  | .ldaAddr _ => opcodeColumns.ldaAddr
  | .ldbAddr _ => opcodeColumns.ldbAddr
  | .ldcAddr _ => opcodeColumns.ldcAddr
  | .ldaInd => opcodeColumns.ldaInd
  | .ldbInd => opcodeColumns.ldbInd
  | .ldcInd => opcodeColumns.ldcInd
  | .staAddr _ => opcodeColumns.staAddr
  | .stbAddr _ => opcodeColumns.stbAddr
  | .stcAddr _ => opcodeColumns.stcAddr
  | .staInd => opcodeColumns.staInd
  | .stbInd => opcodeColumns.stbInd
  | .stcInd => opcodeColumns.stcInd
  | .inc => opcodeColumns.inc
  | .dec => opcodeColumns.dec
  | .con _ => opcodeColumns.con
  | .jp _ => opcodeColumns.jp
  | .jz _ => opcodeColumns.jz
  | .jnz _ => opcodeColumns.jnz
  | .swb => opcodeColumns.swb
  | .swc => opcodeColumns.swc
  | .hcf => opcodeColumns.hcf

/-- The size column of R75: how far retiring advances `pc`. It is the length of the encoding (`encode_length`). -/
def Instr.size (i : Instr) : Nat := i.row.size

/-- The cost column of R75: what retiring adds to `cycle`; by opcode alone, jumps taken or not (R81; decision D8, log 8). -/
def Instr.cost (i : Instr) : Nat := i.row.cost

/-- The two bytes a table word stands for: byte 0 is the opcode, byte 1 the operand; the bits from `nbits` up are 0. -/
def tableWordBytes (nbits w : Nat) : List Byte :=
  let v := w % 2 ^ nbits
  [BitVec.ofNat 8 v, BitVec.ofNat 8 (v / 2 ^ params.xlen)]

/-- The instruction the decoder reads from a row of spec/opcode_table.json whose bits are `w`. -/
def decodeTableWord (nbits w : Nat) : Option Instr :=
  match decode (tableWordBytes nbits w) with
  | .ok (i, _) => some i
  | .error _ => none

end Sys2Proof
end

