-- ==== Sys2Proof/Machine/State.lean ====
section
/-! DEFINITION. The state of the coolcpu CORE as plain data, and its reset (10_state.md R10 to R37). -/

namespace Sys2Proof.Machine

/-- The eight fault kinds of 60_exceptions.md R300, "all per-step, terminal, non-retryable".
A step that raises one TAKES it: it answers a NEXT state whose `status` is `faulted kind` (R314), so no step ever answers
`Host.Outcome.fault`, and raising one is neither safe nor unsafe by itself: it is what the spec says (log 3). -/
inductive Fault where
  /-- Raised by `memRead` (opcode fetch, operand fetch, loads) at 0xF0 to 0xFF and by `memWrite` at an unmapped address (R301).
  Safe where the address is a device register being read: the spec's decisions D2, D3 choose the fault (log 10). -/
  | illegalAddress
  /-- Raised by `memWrite` at 0x00 to 0x7F, whoever writes (R302). The spec's own, neither way. -/
  | protectedWrite
  /-- Raised by the decoder on one of the 234 other opcode bytes (R303). The spec's own, neither way. -/
  | illegalInstruction
  /-- Raised by a write to DST, SRC or GO while Armed (R304). The spec's own, neither way. -/
  | engineBusy
  /-- Raised by a write to POKE while Idle (R305). The spec's own, neither way. -/
  | engineNotArmed
  /-- Raised by a write to POKE of a byte other than `index` (R306). The spec's own, neither way. -/
  | engineIndexMismatch
  /-- Raised by a timed poke with `now < ref_cycle + 36` (R307). Unsafe where the sampling point is wrong (log 7). -/
  | engineTimingEarly
  /-- Raised by a timed poke with `now > ref_cycle + 36` (R308). Unsafe where the sampling point is wrong (log 7). -/
  | engineTimingLate
  deriving DecidableEq, Repr

/-- What the model has no meaning for. No step answers one: every instruction has its meaning. -/
inductive Refusal where
  /-- An instruction without a meaning, named as spec/opcode_table.json names it. Raised by no arm of `exec`. Safe. -/
  | notModelled (mnemonic : String)
  /-- Raised by `construct` on a ROM image of more than 128 bytes: "construction is refused (no machine exists)"
  (70_reset_and_hazards.md R401, decision D24). Safe (log 17). -/
  | romImageTooLong
  /-- Raised by `construct` on a RAM seed of more than 112 bytes: RAM_INIT has 112 (00_scope.md R4). Safe (log 17). -/
  | ramInitTooLong
  deriving DecidableEq, Repr

/-- `status` (10_state.md R28): a step is taken only while `running`; the three others are terminal. -/
inductive RunStatus where
  /-- The run goes on. -/
  | running
  /-- HCF retired (R170). -/
  | halted
  /-- A step raised the fault (R314). -/
  | faulted (kind : Fault)
  /-- The host's signal was seen at a step boundary (R312). -/
  | cancelled
  deriving DecidableEq, Repr

/-- ROM and RAM: the bytes at 0x00 to 0xEF that are not 0x00, by rising address (log 16). -/
abbrev Memory := List Host.Cell

/-- The block transfer engine (10_state.md R22 to R27). -/
structure Engine where
  /-- DST (R23). -/
  dst : Byte
  /-- SRC (R24). -/
  src : Byte
  /-- false = Idle, true = Armed (R25). -/
  inProgress : Bool
  /-- The expected-next-poke index (R25). -/
  index : Byte
  /-- The cycle recorded at GO and at each accepted poke (R26). -/
  refCycle : Nat
  /-- MAGIC, never written, read by the copy alone (R27). -/
  magic : Byte
  /-- SECRET_PAYLOAD, never written, read by the copy alone (R230). -/
  payload : Vector Byte Config.copyLen
  deriving DecidableEq, Repr

/-- Everything the spec gives the machine, and the host's one input. -/
structure State where
  /-- Register A (R10). -/
  a : Byte
  /-- Register B (R10). -/
  b : Byte
  /-- Register C (R10). -/
  c : Byte
  /-- The program counter (R13). -/
  pc : Byte
  /-- The cycle counter, unbounded (R16). -/
  cycle : Nat
  /-- ROM and RAM (R17, R18). -/
  mem : Memory
  /-- The output trace, oldest first (R21). -/
  out : List Byte
  /-- The run status (R28). -/
  status : RunStatus
  /-- The engine in the extended variant; `none` is the base variant, where "none of it exists" (R22). -/
  engine : Option Engine
  /-- CYCLE_SAMPLE, never written (R82). -/
  cycleSample : CycleSample
  /-- The input `cancel` (R31, R312) at the coming step boundaries, the next first; not asserted past its end.
  The MODEL's own field: a free input under no law. DESIGN CHOICE, log 5. -/
  cancelIn : List Bool
  deriving DecidableEq, Repr

/-- VARIANT (R1), read off the presence of the engine (log 20). -/
def State.variant (s : State) : Variant :=
  match s.engine with
  | some _ => .extended
  | none => .base

/-- The engine right after construction: Idle, every field zero (R37), with the given draw and constant. -/
def Engine.fresh (magic : Byte) (payload : Vector Byte Config.copyLen) : Engine :=
  { dst := 0x00, src := 0x00, inProgress := false, index := 0x00, refCycle := 0, magic := magic, payload := payload }

/-- The machine right after reset (R37, R400): here of the extended variant, with the empty ROM image and no RAM seed
(DESIGN CHOICE, log 1), CYCLE_SAMPLE `pre` (log 7), no cancellation ahead (log 5), MAGIC and SECRET_PAYLOAD free (log 6). -/
def State.reset : State :=
  { a := 0x00, b := 0x00, c := 0x00
    pc := 0x00
    cycle := 0
    mem := []
    out := []
    status := .running
    engine := some (.fresh Config.magic Config.secretPayload)
    cycleSample := .pre
    cancelIn := [] }

end Sys2Proof.Machine
end

