-- ==== Sys2Proof/Machine/Ops.lean ====
section
/-! DEFINITION. The named operations over memory and registers: the canonical memory, the one read path, the register
writes, retirement, and taking a fault. The one write path, which reaches the engine, is in Machine/Devices.lean. -/

namespace Sys2Proof.Machine

/-- What an address that the list does not name reads as: ROM is zero-padded (10_state.md R17), RAM is zeroed (R18). -/
def Memory.blank : Byte := 0x00

/-- The byte at a storage address. -/
def Memory.read : Memory → Nat → Byte
  | [], _ => Memory.blank
  | (k, w) :: m, x => if x = k then w else Memory.read m x

/-- Store one byte, keeping the canonical form. -/
def Memory.write : Memory → Nat → Byte → Memory
  | [], x, v => if v = Memory.blank then [] else [(x, v)]
  | (k, w) :: m, x, v =>
    if x < k then (if v = Memory.blank then (k, w) :: m else (x, v) :: (k, w) :: m)
    else if x = k then (if v = Memory.blank then m else (x, v) :: m)
    else (k, w) :: Memory.write m x v

/-- Store a list of bytes at consecutive addresses. -/
def Memory.load (m : Memory) (x : Nat) : List Byte → Memory
  | [] => m
  | v :: vs => Memory.load (m.write x v) (x + 1) vs

/-- The canonical form: addresses strictly rising and inside the 240 bytes of storage (20_memory.md R41), no entry equal to
what an unlisted address reads as. -/
abbrev Memory.wf (m : Memory) : Prop :=
  m.Pairwise (fun p q => p.1 < q.1) ∧ ∀ p ∈ m, InStorage p.1 ∧ p.2 ≠ Memory.blank

/-- `MemRead(addr, 1)`, the one read path, without side effect (20_memory.md R44): ROM and RAM answer their byte, every
address from 0xF0 up raises IllegalAddress (device reads: decisions D2, D3, log 10). -/
def memRead (s : State) (addr : Byte) : Except Fault Byte :=
  if InStorage addr.toNat then .ok (s.mem.read addr.toNat) else .error .illegalAddress

/-- The numeric fault codes of 60_exceptions.md R300 (decision D17, log 21): nothing depends on them. -/
def Fault.code : Fault → Nat
  | .illegalAddress => 1
  | .protectedWrite => 2
  | .illegalInstruction => 3
  | .engineBusy => 4
  | .engineNotArmed => 5
  | .engineIndexMismatch => 6
  | .engineTimingEarly => 7
  | .engineTimingLate => 8

/-- The fault code of a status: 0 for "no fault" (R300). -/
def RunStatus.code : RunStatus → Nat
  | .faulted f => f.code
  | .running | .halted | .cancelled => 0

/-- The three general registers (10_state.md R10). -/
inductive Reg where
  | a
  | b
  | c
  deriving DecidableEq, Repr

/-- Read a general register. -/
def State.reg (s : State) : Reg → Byte
  | .a => s.a
  | .b => s.b
  | .c => s.c

/-- Write a general register. -/
def State.setReg (s : State) (r : Reg) (v : Byte) : State :=
  match r with
  | .a => { s with a := v }
  | .b => { s with b := v }
  | .c => { s with c := v }

/-- Store a byte in ROM or RAM, without any check. -/
def State.storeByte (s : State) (x : Nat) (v : Byte) : State := { s with mem := s.mem.write x v }

/-- Relay one byte to the sink, which always accepts (46_devices.md R200, decision D20, log 12). -/
def State.emit (s : State) (v : Byte) : State := { s with out := s.out ++ [v] }

/-- Replace the engine's state. -/
def State.setEngine (s : State) (e : Engine) : State := { s with engine := some e }

/-- Set the run status. -/
def State.setStatus (s : State) (t : RunStatus) : State := { s with status := t }

/-- `now`, the cycle value a device write of a storing instruction of the given cost observes (30_encoding.md R82). -/
def State.now (s : State) (cost : Nat) : Nat :=
  match s.cycleSample with
  | .pre => s.cycle
  | .post => s.cycle + cost

/-- The last two lines of a retiring step: `pc <- next`, `cycle <- cycle + cost` (30_encoding.md R80, R81). -/
def State.retireTo (s : State) (next : Byte) (cost : Nat) : State :=
  { s with pc := next, cycle := s.cycle + cost }

/-- Where control goes when the instruction does not redirect it: `pc +8 size` (10_state.md R14). -/
def State.seqPc (s : State) (i : Instr) : Byte := s.pc + BitVec.ofNat 8 i.size

/-- Retire an instruction that does not redirect control. -/
def retire (i : Instr) (s : State) : Host.Outcome State Fault Refusal :=
  .next (s.retireTo (s.seqPc i) i.cost)

/-- Retire an instruction that sends control to `target` (43_jumps.md R150). -/
def retireAt (target : Byte) (i : Instr) (s : State) : Host.Outcome State Fault Refusal :=
  .next (s.retireTo target i.cost)

/-- TAKE A FAULT (60_exceptions.md R314): `status <- Faulted(kind)` and nothing else. No register, no pc, no cycle, nothing
saved, no vector. `s` already holds what a faulting copy did (R315). There is no return from a fault (R316), so no operation
stands beside this one. pc and cycle after a fault are the spec's decision D6, log 9. -/
def takeFault (f : Fault) (s : State) : Host.Outcome State Fault Refusal :=
  .next (s.setStatus (.faulted f))

end Sys2Proof.Machine
end

