-- ==== Sys2Proof/Machine/Flags.lean ====
section
/-! DEFINITION. The machine has no flags (10_state.md R15): the conditional jumps test the value of A itself, and the
arithmetic leaves its result and nothing else. -/

namespace Sys2Proof.Machine

/-- The condition of JZ; JNZ takes its negation (43_jumps.md R151, R152). -/
def aIsZero (s : State) : Bool := s.a == 0x00

/-- `v +8 1` (00_scope.md R6, 42_arith_const.md R140). -/
def incByte (v : Byte) : Byte := v + 1

/-- `v -8 1` (00_scope.md R6, 42_arith_const.md R141). -/
def decByte (v : Byte) : Byte := v - 1

end Sys2Proof.Machine
end

