-- ==== Sys2Proof/Machine/Operands.lean ====
section
/-! DEFINITION. The operand forms of 30_encoding.md R73: where a load or store goes, what an immediate is, where a jump goes. -/

namespace Sys2Proof.Machine

/-- The direct form `addr`: the operand byte is the address, unmodified (R73). -/
def directAddr (opnd : Byte) (_ : State) : Byte := opnd

/-- The form `[A]`: register A at the start of the step is the address (R73). -/
def indirectAddr (s : State) : Byte := s.a

/-- The immediate form: the operand byte is the value, unmodified (R73, R142). -/
def immediate (opnd : Byte) : Byte := opnd

/-- An absolute target: the operand byte is the new pc (R73, R153). -/
def absoluteTarget (opnd : Byte) : Byte := opnd

end Sys2Proof.Machine
end

