-- ==== Sys2Proof/Machine/Arith.lean ====
section
/-! DEFINITION. Arithmetic on A and the constant load (42_arith_const.md R140 to R143). -/

namespace Sys2Proof.Machine

/-- INC (R140). -/
def execInc (s : State) : Host.Outcome State Fault Refusal := retire .inc (s.setReg .a (incByte s.a))

/-- DEC (R141). -/
def execDec (s : State) : Host.Outcome State Fault Refusal := retire .dec (s.setReg .a (decByte s.a))

/-- CON imm (R142). -/
def execCon (opnd : Byte) (s : State) : Host.Outcome State Fault Refusal :=
  retire (.con opnd) (s.setReg .a (immediate opnd))

end Sys2Proof.Machine
end

