-- ==== Sys2Proof/Machine/Jump.lean ====
section
/-! DEFINITION. The jumps (43_jumps.md R150 to R153): absolute targets, the cost fixed whether taken or not (decision D8, log 8).
A jump itself never faults: a target that cannot be fetched from faults in the next step. -/

namespace Sys2Proof.Machine

/-- JP addr (R150). -/
def execJp (opnd : Byte) (s : State) : Host.Outcome State Fault Refusal :=
  retireAt (absoluteTarget opnd) (.jp opnd) s

/-- JZ addr (R151). -/
def execJz (opnd : Byte) (s : State) : Host.Outcome State Fault Refusal :=
  if aIsZero s then retireAt (absoluteTarget opnd) (.jz opnd) s else retire (.jz opnd) s

/-- JNZ addr (R152). -/
def execJnz (opnd : Byte) (s : State) : Host.Outcome State Fault Refusal :=
  if aIsZero s then retire (.jnz opnd) s else retireAt (absoluteTarget opnd) (.jnz opnd) s

end Sys2Proof.Machine
end

