-- ==== Sys2Proof/Machine/Load.lean ====
section
/-! DEFINITION. NOP and the six loads (40_nop_and_loads.md R100 to R107). -/

namespace Sys2Proof.Machine

/-- A load: one byte read at `addr` into `r`; a fault leaves the register as it was (R107). -/
def loadByte (r : Reg) (addr : Byte) (i : Instr) (s : State) : Host.Outcome State Fault Refusal :=
  match memRead s addr with
  | .ok v => retire i (s.setReg r v)
  | .error f => takeFault f s

/-- NOP (R100). -/
def execNop (s : State) : Host.Outcome State Fault Refusal := retire .nop s

/-- LDA addr (R101). -/
def execLdaAddr (opnd : Byte) (s : State) : Host.Outcome State Fault Refusal :=
  loadByte .a (directAddr opnd s) (.ldaAddr opnd) s

/-- LDB addr (R102). -/
def execLdbAddr (opnd : Byte) (s : State) : Host.Outcome State Fault Refusal :=
  loadByte .b (directAddr opnd s) (.ldbAddr opnd) s

/-- LDC addr (R103). -/
def execLdcAddr (opnd : Byte) (s : State) : Host.Outcome State Fault Refusal :=
  loadByte .c (directAddr opnd s) (.ldcAddr opnd) s

/-- LDA [A]: the old A is the address (R104). -/
def execLdaInd (s : State) : Host.Outcome State Fault Refusal := loadByte .a (indirectAddr s) .ldaInd s

/-- LDB [A] (R105). -/
def execLdbInd (s : State) : Host.Outcome State Fault Refusal := loadByte .b (indirectAddr s) .ldbInd s

/-- LDC [A] (R106). -/
def execLdcInd (s : State) : Host.Outcome State Fault Refusal := loadByte .c (indirectAddr s) .ldcInd s

end Sys2Proof.Machine
end

