-- ==== Sys2Proof/Machine/Devices.lean ====
section
/-! DEFINITION. `MemWrite`, the one write path (20_memory.md R45), with what it does at each device: the OUTPUT relay and the
block transfer engine (46_devices.md R200 to R235). -/

namespace Sys2Proof.Machine

/-- How a write ends: done, or with a fault and the state it leaves (60_exceptions.md R315). -/
inductive WriteResult where
  /-- The write and everything it set off is complete. -/
  | done (s : State)
  /-- The write raised `f`; `s` holds what had already been done. -/
  | raised (f : Fault) (s : State)
  deriving DecidableEq, Repr

/-- A store to DST (R211). -/
def engineWriteDst (e : Engine) (v : Byte) (s : State) : WriteResult :=
  if e.inProgress then .raised .engineBusy s else .done (s.setEngine { e with dst := v })

/-- A store to SRC (R212). -/
def engineWriteSrc (e : Engine) (v : Byte) (s : State) : WriteResult :=
  if e.inProgress then .raised .engineBusy s else .done (s.setEngine { e with src := v })

/-- A store to GO: the value is ignored (R213, R214; decision D12, log 13). -/
def engineWriteGo (now : Nat) (e : Engine) (s : State) : WriteResult :=
  if e.inProgress then .raised .engineBusy s
  else .done (s.setEngine { e with inProgress := true, index := params.pokeStart, refCycle := now })

/-- The engine after an accepted poke: index down by one, the cycle recorded (R225). -/
def Engine.accept (e : Engine) (now : Nat) : Engine := { e with index := e.index - 1, refCycle := now }

/-- The engine back in Idle (R226); DST and SRC keep their values (decision D13). -/
def Engine.idle (e : Engine) : Engine := { e with inProgress := false }

/-- The return to Idle when the copy is complete (R226). -/
def State.endTransfer (s : State) : State := { s with engine := s.engine.map Engine.idle }

/-- What the poke of 1 sets off: the copy, then Idle (R226; copy first, decision D10, log 14). -/
def completeTransfer (copy : State → WriteResult) (s : State) : WriteResult :=
  match copy s with
  | .done s' => .done s'.endTransfer
  | .raised f s' => .raised f s'

/-- A store to POKE: the checks in the order of R220 (decision D9, log 14), then acceptance (R225), then, on the transition
of `index` from 1 to 0, the copy and the return to Idle (R226). -/
def engineWritePoke (copy : State → WriteResult) (now : Nat) (e : Engine) (v : Byte) (s : State) : WriteResult :=
  if !e.inProgress then .raised .engineNotArmed s
  else if v ≠ e.index then .raised .engineIndexMismatch s
  else if e.index ≠ params.pokeStart ∧ now < e.refCycle + params.pokeGap then .raised .engineTimingEarly s
  else if e.index ≠ params.pokeStart ∧ now > e.refCycle + params.pokeGap then .raised .engineTimingLate s
  else if (e.accept now).index = 0 then completeTransfer copy (s.setEngine (e.accept now))
  else .done (s.setEngine (e.accept now))

/-- The write path with the copy that a completed handshake sets off left as an argument: 20_memory.md R45, line by line. -/
def memWriteWith (copy : State → WriteResult) (now : Nat) (addr v : Byte) (s : State) : WriteResult :=
  if InRom addr.toNat then .raised .protectedWrite s
  else if InRam addr.toNat then .done (s.storeByte addr.toNat v)
  else if addr = params.addrOutput then .done (s.emit v)
  else
    match s.engine with
    | none => .raised .illegalAddress s
    | some e =>
      if addr = params.addrDst then engineWriteDst e v s
      else if addr = params.addrSrc then engineWriteSrc e v s
      else if addr = params.addrGo then engineWriteGo now e s
      else if addr = params.addrPoke then engineWritePoke copy now e v s
      else .raised .illegalAddress s

/-- Write `bytes` at ascending addresses modulo 256; the first write that faults ends it (R230, R231; decision D11, log 14). -/
def copyLoop (write : Byte → Byte → State → WriteResult) (addr : Byte) : List Byte → State → WriteResult
  | [], s => .done s
  | b :: bs, s =>
    match write addr b s with
    | .done s' => copyLoop write (addr + 1) bs s'
    | .raised f s' => .raised f s'

/-- What the copy writes: the payload if SRC equals MAGIC, zeros otherwise (R230). The only reader of MAGIC (R27). -/
def Engine.copyBytes (e : Engine) : List Byte :=
  if e.src = e.magic then e.payload.toList else List.replicate params.copyLen 0x00

/-- The write path as the copy itself uses it. During a copy the engine is Armed with `index = 0` and `ref_cycle = now`, so a
poke made by the copy always faults (R232, row 0xF5) and the copy standing in the first argument is never run: any other
would give the same (`memWriteWith_copy_irrelevant` in Laws/Devices.lean). DEDUCED, log 19. -/
def copyWrite (now : Nat) : Byte → Byte → State → WriteResult := memWriteWith WriteResult.done now

/-- The copy of R230. -/
def engineCopy (now : Nat) (s : State) : WriteResult :=
  match s.engine with
  | none => .done s
  | some e => copyLoop (copyWrite now) e.dst e.copyBytes s

/-- `MemWrite(addr, 1, v)` at the cycle value `now`, the one write path (20_memory.md R45). -/
def memWrite (now : Nat) (addr v : Byte) (s : State) : WriteResult := memWriteWith (engineCopy now) now addr v s

end Sys2Proof.Machine
end

