-- ==== Sys2Proof/Machine/Store.lean ====
section
/-! DEFINITION. The six stores (41_stores.md R120 to R126): one `MemWrite` each, the same at every address. -/

namespace Sys2Proof.Machine

/-- A store: one write of register `r` at `addr`, the device seeing `now` for this instruction's cost (R82, R126). -/
def storeReg (r : Reg) (addr : Byte) (i : Instr) (s : State) : Host.Outcome State Fault Refusal :=
  match memWrite (s.now i.cost) addr (s.reg r) s with
  | .done s' => retire i s'
  | .raised f s' => takeFault f s'

/-- STA addr (R120). -/
def execStaAddr (opnd : Byte) (s : State) : Host.Outcome State Fault Refusal :=
  storeReg .a (directAddr opnd s) (.staAddr opnd) s

/-- STB addr (R121). -/
def execStbAddr (opnd : Byte) (s : State) : Host.Outcome State Fault Refusal :=
  storeReg .b (directAddr opnd s) (.stbAddr opnd) s

/-- STC addr (R122). -/
def execStcAddr (opnd : Byte) (s : State) : Host.Outcome State Fault Refusal :=
  storeReg .c (directAddr opnd s) (.stcAddr opnd) s

/-- STA [A]: A is the address and the value (R123). -/
def execStaInd (s : State) : Host.Outcome State Fault Refusal := storeReg .a (indirectAddr s) .staInd s

/-- STB [A] (R124). -/
def execStbInd (s : State) : Host.Outcome State Fault Refusal := storeReg .b (indirectAddr s) .stbInd s

/-- STC [A] (R125). -/
def execStcInd (s : State) : Host.Outcome State Fault Refusal := storeReg .c (indirectAddr s) .stcInd s

end Sys2Proof.Machine
end

