-- ==== Sys2Proof/Machine/Swap.lean ====
section
/-! DEFINITION. The register swaps (44_swaps.md R160, R161): both assignments use the values at the start of the step. -/

namespace Sys2Proof.Machine

/-- Exchange A with `r`. -/
def State.swapA (s : State) (r : Reg) : State := (s.setReg .a (s.reg r)).setReg r s.a

/-- SWB (R160). -/
def execSwb (s : State) : Host.Outcome State Fault Refusal := retire .swb (s.swapA .b)

/-- SWC (R161). -/
def execSwc (s : State) : Host.Outcome State Fault Refusal := retire .swc (s.swapA .c)

end Sys2Proof.Machine
end

