-- ==== Sys2Proof/Machine/System.lean ====
section
/-! DEFINITION. The halt, the machine's only system instruction (45_halt_and_illegal.md R170, R171). -/

namespace Sys2Proof.Machine

/-- HCF: retires like any instruction, then `status <- Halted` (R170; pc and cycle advance by decision D7, log 9). -/
def execHcf (s : State) : Host.Outcome State Fault Refusal := retire .hcf (s.setStatus .halted)

end Sys2Proof.Machine
end

