-- ==== Sys2Proof/Machine/Dispatch.lean ====
section
/-! DEFINITION. `Execute(op)` and retirement (30_encoding.md R80) of a decoded instruction: one meaning per constructor. -/

namespace Sys2Proof.Machine

def exec (i : Instr) (s : State) : Host.Outcome State Fault Refusal :=
  match i with
  | .nop => Sys2Proof.Machine.execNop s
  | .ldaAddr opnd => Sys2Proof.Machine.execLdaAddr opnd s
  | .ldbAddr opnd => Sys2Proof.Machine.execLdbAddr opnd s
  | .ldcAddr opnd => Sys2Proof.Machine.execLdcAddr opnd s
  | .ldaInd => Sys2Proof.Machine.execLdaInd s
  | .ldbInd => Sys2Proof.Machine.execLdbInd s
  | .ldcInd => Sys2Proof.Machine.execLdcInd s
  | .staAddr opnd => Sys2Proof.Machine.execStaAddr opnd s
  | .stbAddr opnd => Sys2Proof.Machine.execStbAddr opnd s
  | .stcAddr opnd => Sys2Proof.Machine.execStcAddr opnd s
  | .staInd => Sys2Proof.Machine.execStaInd s
  | .stbInd => Sys2Proof.Machine.execStbInd s
  | .stcInd => Sys2Proof.Machine.execStcInd s
  | .inc => Sys2Proof.Machine.execInc s
  | .dec => Sys2Proof.Machine.execDec s
  | .con opnd => Sys2Proof.Machine.execCon opnd s
  | .jp opnd => Sys2Proof.Machine.execJp opnd s
  | .jz opnd => Sys2Proof.Machine.execJz opnd s
  | .jnz opnd => Sys2Proof.Machine.execJnz opnd s
  | .swb => Sys2Proof.Machine.execSwb s
  | .swc => Sys2Proof.Machine.execSwc s
  | .hcf => Sys2Proof.Machine.execHcf s

end Sys2Proof.Machine
end

