-- ==== Sys2Proof/Machine/Fetch.lean ====
section
/-! DEFINITION. Fetching an instruction, one whole step (30_encoding.md R80), the boundary before it (60_exceptions.md R312), and
placing an instruction's bytes where the next step fetches them. -/

namespace Sys2Proof.Machine

/-- The fetch of R80: the opcode at `pc`, looked up; then, for format F2 only, the operand at `pc +8 1`, in every such step
(R73, decision D28, log 18). The faults come in this order (60_exceptions.md R310). -/
def fetch (s : State) : Except Fault Instr :=
  match memRead s s.pc with
  | .error f => .error f
  | .ok op =>
    match decode [op] with
    | .ok (i, _) => .ok i
    | .error .missingOperand =>
      match memRead s (s.pc + 1) with
      | .error f => .error f
      | .ok opnd =>
        match decode [op, opnd] with
        | .ok (i, _) => .ok i
        | .error _ => .error .illegalInstruction
    | .error _ => .error .illegalInstruction

/-- One step of a running machine: fetch, execute, retire, or take the fault of the fetch (R80, R314). -/
def runningStep (s : State) : Host.Outcome State Fault Refusal :=
  match fetch s with
  | .ok i => exec i s
  | .error f => takeFault f s

/-- The level of the cancellation input at the coming boundary (log 5). -/
def State.cancelNow (s : State) : Bool := s.cancelIn.headD false

/-- The state once the coming boundary has been passed without cancellation: the input moves on by one. -/
def State.pastBoundary (s : State) : State := { s with cancelIn := s.cancelIn.tail }

/-- One step, the cancellation input taken from the state. A machine that is not Running does nothing (10_state.md R34; log 4);
an asserted signal cancels a Running one and changes nothing else (60_exceptions.md R312); otherwise the input moves on and a
step is taken. -/
def stepFromInput (s : State) : Host.Outcome State Fault Refusal :=
  match s.status with
  | .running => if s.cancelNow then .next (s.setStatus .cancelled) else runningStep s.pastBoundary
  | .halted | .faulted _ | .cancelled => .next s

/-- An address from which the longest instruction, two bytes, can be fetched: the pc where it and the next address are storage,
else the reset vector. -/
def State.placeablePc (s : State) : Byte := 
  if InStorage s.pc.toNat ∧ InStorage (s.pc.toNat + 1) then s.pc else 0x00

/-- The state in which the next step fetches the given bytes: loaded from outside the machine (log 2). -/
def State.placeBytes (s : State) (bytes : List Byte) : State :=
  { s with
    pc := s.placeablePc
    mem := s.mem.load s.placeablePc.toNat bytes
    status := .running
    cancelIn := [] }

end Sys2Proof.Machine
end

