-- ==== Sys2Proof/Machine/Step.lean ====
section
/-! DEFINITION. The step, and placing a word of the opcode table where it fetches. -/

namespace Sys2Proof.Machine

/-- One step: the boundary (60_exceptions.md R312), then one instruction (30_encoding.md R80). -/
def step (s : State) : Host.Outcome State Fault Refusal := stepFromInput s

/-- `s` with the instruction of a table row placed where the next step fetches: at `pc` (moved to the reset vector where two
bytes do not fit below 0xF0), with the run status Running and no cancellation ahead, which that fetch needs (log 2). -/
def State.withFetchWord (s : State) (nbits w : Nat) : State := s.placeBytes (tableWordBytes nbits w)

end Sys2Proof.Machine
end

