-- ==== Sys2Proof/Machine/Construct.lean ====
section
/-! DEFINITION. Construction, the only reset the machine has (70_reset_and_hazards.md R400, R401, R406), over every input. -/

namespace Sys2Proof.Machine

/-- The construction inputs (10_state.md R30), the two values the machine does not get from the host (MAGIC, SECRET_PAYLOAD),
the switch CYCLE_SAMPLE, and the host's cancellation input over the run (R31). -/
structure Inputs where
  /-- VARIANT. -/
  variant : Variant
  /-- ROM_IMAGE, at most ROM_SIZE = 128 bytes. -/
  romImage : List Byte
  /-- RAM_INIT, from RAM_BASE up, at most RAM_SIZE = 112 bytes; by default none, "default all 0x00" (R4). -/
  ramInit : List Byte := []
  /-- MAGIC, drawn in the extended variant only (R402). -/
  magic : Byte
  /-- SECRET_PAYLOAD. -/
  payload : Vector Byte Config.copyLen
  /-- CYCLE_SAMPLE; `pre` by default (R4). -/
  cycleSample : CycleSample := .pre
  /-- The levels of `cancel` at the boundaries of the run. -/
  cancelIn : List Bool
  deriving DecidableEq, Repr

/-- Construction: the state of 10_state.md R37, or a refusal of an oversized image or seed (R401, decision D24, log 17). -/
def construct (x : Inputs) : Host.Outcome State Fault Refusal :=
  if !romImageOk x.romImage then .refused .romImageTooLong
  else if !ramInitOk x.ramInit then .refused .ramInitTooLong
  else
    .next
      { a := 0x00, b := 0x00, c := 0x00
        pc := 0x00
        cycle := 0
        mem := (Memory.load [] params.romBase x.romImage).load params.ramBase x.ramInit
        out := []
        status := .running
        engine :=
          match x.variant with
          | .base => none
          | .extended => some (.fresh x.magic x.payload)
        cycleSample := x.cycleSample
        cancelIn := x.cancelIn }

end Sys2Proof.Machine
end

