-- ==== Sys2Proof/Safety.lean ====
section
/-! DEFINITION. The terms claims are stated in: what the host sees, when a step is taken, which instruction stands at the pc,
and the invariant of the machine. -/

namespace Sys2Proof.Machine

/-- What the host may read at the end of a run (10_state.md R36): no engine field (decision D22), never MAGIC (R27). -/
structure HostView where
  a : Byte
  b : Byte
  c : Byte
  pc : Byte
  cycle : Nat
  ram : List Byte
  out : List Byte
  status : RunStatus
  deriving DecidableEq, Repr

/-- The host's view of a state. -/
def State.hostView (s : State) : HostView :=
  { a := s.a, b := s.b, c := s.c, pc := s.pc, cycle := s.cycle
    ram := (List.range params.ramSize).map fun k => s.mem.read (params.ramBase + k)
    out := s.out, status := s.status }

/-- The run is over with a fault. -/
def State.isFaulted (s : State) : Bool :=
  match s.status with
  | .faulted _ => true
  | .running | .halted | .cancelled => false

/-- An instruction will be fetched at the coming boundary: Running and not cancelled (10_state.md R28, 60_exceptions.md R312). -/
def State.Ready (s : State) : Prop := s.status = .running ∧ s.cancelNow = false

/-- The bytes of `i` stand at the pc, all of them in ROM or RAM. -/
def State.Holds (s : State) (i : Instr) : Prop :=
  ∀ (k : Nat) (v : Byte), (encode i)[k]? = some v → memRead s (s.pc + BitVec.ofNat 8 k) = .ok v

/-- The six loads, with operand byte `x` where the form has one: instruction, destination, address read (R101 to R106). -/
def loadForms (x : Byte) (s : State) : List (Instr × Reg × Byte) :=
  [(.ldaAddr x, .a, directAddr x s), (.ldbAddr x, .b, directAddr x s), (.ldcAddr x, .c, directAddr x s),
   (.ldaInd, .a, indirectAddr s), (.ldbInd, .b, indirectAddr s), (.ldcInd, .c, indirectAddr s)]

/-- The six stores, with operand byte `x` where the form has one: instruction, address written, value written (R120 to R125). -/
def storeForms (x : Byte) (s : State) : List (Instr × Byte × Byte) :=
  [(.staAddr x, directAddr x s, s.a), (.stbAddr x, directAddr x s, s.b), (.stcAddr x, directAddr x s, s.c),
   (.staInd, indirectAddr s, s.a), (.stbInd, indirectAddr s, s.b), (.stcInd, indirectAddr s, s.c)]

/-- The instruction is one of the six stores. -/
def isStore : Instr → Bool
  | .staAddr _ | .stbAddr _ | .stcAddr _ | .staInd | .stbInd | .stcInd => true
  | .nop | .ldaAddr _ | .ldbAddr _ | .ldcAddr _ | .ldaInd | .ldbInd | .ldcInd | .inc | .dec | .con _ | .jp _ | .jz _
  | .jnz _ | .swb | .swc | .hcf => false

/-- The same machine with another MAGIC and another SECRET_PAYLOAD. -/
def State.withSecrets (s : State) (magic : Byte) (payload : Vector Byte Config.copyLen) : State :=
  { s with engine := s.engine.map fun e => { e with magic := magic, payload := payload } }

/-- What the engine's fields keep to between steps (10_state.md R25, R26): the index is at most 5; Idle means index 0; and
unless the run ended in a fault, Armed means an index of 1 to 5 and the recorded cycle is not in the future. -/
def Engine.Coherent (e : Engine) (faulted : Bool) (cycle : Nat) : Prop :=
  e.index.toNat ≤ 5 ∧
  (e.inProgress = false → e.index = 0) ∧
  (faulted = false → (e.inProgress = true → 1 ≤ e.index.toNat) ∧ e.refCycle ≤ cycle)

/-- The invariant: memory in its canonical form, the engine coherent. -/
def State.Inv (s : State) : Prop :=
  s.mem.wf ∧ ∀ e, s.engine = some e → e.Coherent s.isFaulted s.cycle

/-- The states the machine can be in: constructed, then stepped. -/
inductive Reachable : State → Prop where
  | constructed {x : Inputs} {s : State} : construct x = .next s → Reachable s
  | stepped {s s' : State} : Reachable s → step s = .next s' → Reachable s'

end Sys2Proof.Machine
end

