-- ==== Sys2Proof/Certificates/Slice0/Obligations.lean ====
section
/-! DEFINITION. The statements about the model, from the numbered rules of spec/. Where one rests on a decision of
92_eei_decisions.md (D<n>) or on a choice of the model (log <n>), its docstring says so. -/

open Sys2Proof Sys2Proof.Machine

/-! ### Reset and construction -/

/-- R37, R400: State.reset has every field at its reset value, memory reads 0x00 throughout, and it is what `construct` gives
for the extended variant, an empty image, no seed and CYCLE_SAMPLE `pre` (the model's choice of instance, logs 1, 5, 6, 7). -/
def Obligations.ResetIsTheConstructedMachine : Prop :=
  State.reset.a = 0x00 ∧ State.reset.b = 0x00 ∧ State.reset.c = 0x00 ∧ State.reset.pc = 0x00 ∧ State.reset.cycle = 0 ∧
  State.reset.out = [] ∧ State.reset.status = .running ∧
  (∀ x : Byte, x.toNat < 0xF0 → memRead State.reset x = .ok 0x00) ∧
  construct { variant := .extended, romImage := [], ramInit := [], magic := Config.magic, payload := Config.secretPayload,
              cycleSample := .pre, cancelIn := [] } = .next State.reset

/-- R37, R400, R401, R17, R18: construction gives every register its reset value, ROM the image then zeros, RAM the seed then
zeros, the chosen variant, and in the extended variant an Idle engine with zeroed fields and the given MAGIC and payload. -/
def Obligations.ConstructionGivesTheResetState : Prop :=
  ∀ x : Inputs, x.romImage.length ≤ 128 → x.ramInit.length ≤ 112 →
    ∃ s, construct x = .next s ∧
      s.a = 0x00 ∧ s.b = 0x00 ∧ s.c = 0x00 ∧ s.pc = 0x00 ∧ s.cycle = 0 ∧ s.out = [] ∧ s.status = .running ∧
      s.variant = x.variant ∧ s.cycleSample = x.cycleSample ∧ s.cancelIn = x.cancelIn ∧
      (∀ k : Nat, k < 0x80 → memRead s (BitVec.ofNat 8 k) = .ok (x.romImage.getD k 0x00)) ∧
      (∀ k : Nat, k < 0x70 → memRead s (BitVec.ofNat 8 (0x80 + k)) = .ok (x.ramInit.getD k 0x00)) ∧
      (∀ e, s.engine = some e →
        e = { dst := 0x00, src := 0x00, inProgress := false, index := 0, refCycle := 0,
              magic := x.magic, payload := x.payload })

/-- R401 (decision D24): an image of more than 128 bytes is refused, no machine exists. -/
def Obligations.OversizedImageIsRefused : Prop :=
  ∀ x : Inputs, 128 < x.romImage.length → construct x = .refused .romImageTooLong

/-! ### The invariant -/

/-- The invariant holds at reset. -/
def Obligations.ResetMeetsTheInvariant : Prop := State.reset.Inv

/-- Every construction meets the invariant: canonical memory, coherent engine. -/
def Obligations.ConstructionMeetsTheInvariant : Prop := ∀ (x : Inputs) (s : State), construct x = .next s → s.Inv

/-- R25, R26, R55: from every state that meets the invariant a step gives a state that meets it: memory stays in its canonical
form; the index stays at most 5; Idle means index 0; unless a fault ended the run, Armed means an index of 1 to 5 and the
recorded cycle is not in the future. -/
def Obligations.StepKeepsTheInvariant : Prop := ∀ s t : State, s.Inv → step s = .next t → t.Inv

/-- Every state a constructed machine reaches meets the invariant. -/
def Obligations.ReachableStatesMeetTheInvariant : Prop := ∀ s : State, Reachable s → s.Inv

/-- R17, R27, R30, R45: no step changes a byte of ROM, the variant, MAGIC, the payload or the sampling switch. -/
def Obligations.StepKeepsRomAndTheInstance : Prop :=
  ∀ s t : State, step s = .next t →
    (∀ x : Byte, x.toNat < 0x80 → memRead t x = memRead s x) ∧ t.variant = s.variant ∧ t.cycleSample = s.cycleSample ∧
    t.engine.map (fun e => (e.magic, e.payload)) = s.engine.map (fun e => (e.magic, e.payload))

/-- R21, R16, R75: the output trace only grows at its end, the cycle counter never decreases and grows by at most 3 a step. -/
def Obligations.OutputAndCycleOnlyGrow : Prop :=
  ∀ s t : State, step s = .next t → (∃ l, t.out = s.out ++ l) ∧ s.cycle ≤ t.cycle ∧ t.cycle ≤ s.cycle + 3

/-! ### The step -/

/-- R80, R314: every instruction in every state, and every step from every state, answers a next state: a fault is an outcome
the state holds (the model's reading, log 3), and nothing is refused. -/
def Obligations.EveryStepAnswersANextState : Prop :=
  (∀ (i : Instr) (s : State), ∃ t, exec i s = .next t) ∧ ∀ s : State, ∃ t, step s = .next t

/-- R28, R34 (decision D18; log 4): a step of a machine that is not Running changes nothing, whatever the cancellation input. -/
def Obligations.StoppedMachineDoesNothing : Prop := ∀ s : State, s.status ≠ .running → step s = .next s

/-- R312 (decision D26; log 5): at a boundary of a Running machine at which the signal is asserted the status becomes
Cancelled, no step is taken and no other state changes. -/
def Obligations.CancellationStopsARunningMachine : Prop :=
  ∀ (s : State) (rest : List Bool), s.status = .running → s.cancelIn = true :: rest →
    step s = .next { s with status := .cancelled }

/-- R80: when the bytes at the pc are those of `i`, a step of a Running machine that is not cancelled is `exec i`, at the state
whose cancellation input has moved on by one; pc and cycle are still those of the start of the step. -/
def Obligations.StepRunsTheDecodedInstruction : Prop :=
  ∀ (s : State) (i : Instr), s.Ready → s.Holds i → step s = exec i { s with cancelIn := s.cancelIn.tail }

/-- R48, R51, R301, R310 (decisions D6, D28): an opcode fetch at 0xF0 to 0xFF, and the operand fetch of a two-byte instruction
at 0xEF, raise IllegalAddress; nothing else changes (but the cancellation input, which moves on). -/
def Obligations.FetchOutsideStorageFaults : Prop :=
  ∀ s : State, s.Ready →
    (0xF0 ≤ s.pc.toNat →
      step s = .next { s with status := .faulted .illegalAddress, cancelIn := s.cancelIn.tail }) ∧
    (s.pc = 0xEF →
      (∃ op ∈ ([0x01, 0x02, 0x03, 0x11, 0x12, 0x13, 0x22, 0x30, 0x31, 0x32] : List Byte), memRead s s.pc = .ok op) →
      step s = .next { s with status := .faulted .illegalAddress, cancelIn := s.cancelIn.tail })

/-- R76, R303: exactly the 234 opcode bytes of the five ranges are illegal, and fetching one raises IllegalInstruction. -/
def Obligations.IllegalOpcodesAreExactlyTheFiveRanges : Prop :=
  ∀ op : Byte,
    ((∀ rest, decode (op :: rest) = .error (.illegalOpcode op)) ↔
      (0x07 ≤ op.toNat ∧ op.toNat ≤ 0x10) ∨ (0x17 ≤ op.toNat ∧ op.toNat ≤ 0x1F) ∨ (0x23 ≤ op.toNat ∧ op.toNat ≤ 0x2F) ∨
      (0x33 ≤ op.toNat ∧ op.toNat ≤ 0x3F) ∨ (0x42 ≤ op.toNat ∧ op.toNat ≤ 0xFE)) ∧
    ((∀ rest, decode (op :: rest) = .error (.illegalOpcode op)) →
      ∀ s : State, s.Ready → memRead s s.pc = .ok op →
        ∃ t, step s = .next t ∧ t.status = .faulted .illegalInstruction)

/-- R330, R312, R170: from Running, the status becomes Cancelled exactly when the signal is asserted, and Halted exactly when it
is not and the opcode at the pc is 0xFF. -/
def Obligations.RunEndsOnlyAsTheDriverSays : Prop :=
  ∀ s t : State, s.status = .running → step s = .next t →
    (t.status = .cancelled ↔ s.cancelNow = true) ∧
    (t.status = .halted ↔ s.cancelNow = false ∧ memRead s s.pc = .ok 0xFF)

/-- R314, R315, R231 (decisions D6, D11): a step that takes a fault leaves A, B, C, pc and cycle as they were, and changes
nothing but the status (and the cancellation input), unless it had accepted the poke of 1 and the copy faulted: then
`index = 0`, the recorded cycle is `now`, and the engine's other fields are as they were. -/
def Obligations.FaultsArePrecise : Prop :=
  ∀ (s t : State) (f : Fault), s.status = .running → step s = .next t → t.status = .faulted f →
    t.a = s.a ∧ t.b = s.b ∧ t.c = s.c ∧ t.pc = s.pc ∧ t.cycle = s.cycle ∧
    (t = { s with status := .faulted f, cancelIn := s.cancelIn.tail } ∨
     ∃ (i : Instr) (e : Engine), s.Holds i ∧ isStore i = true ∧ s.engine = some e ∧ e.inProgress = true ∧ e.index = 1 ∧
       t.engine = some { e with index := 0, refCycle := s.now i.cost })

/-- The model's own (log 2): the word of a table row, placed where the next step fetches, is what that step runs. -/
def Obligations.PlacedWordIsWhatRuns : Prop :=
  ∀ (s : State) (nbits w : Nat) (i : Instr), s.mem.wf → decodeTableWord nbits w = some i →
    step (s.withFetchWord nbits w) = exec i (s.withFetchWord nbits w)

/-! ### Encoding -/

/-- R71: the opcode byte alone decides the length; the ten F2 opcodes take one more byte, the twelve F1 opcodes none, and every
other opcode byte is illegal. -/
def Obligations.OpcodeAloneDecidesTheLength : Prop :=
  ∀ (op : Byte) (rest : List Byte),
    (op ∈ ([0x01, 0x02, 0x03, 0x11, 0x12, 0x13, 0x22, 0x30, 0x31, 0x32] : List Byte) →
      (rest = [] → decode (op :: rest) = .error .missingOperand) ∧
      ∀ x rest', rest = x :: rest' → ∃ i, decode (op :: rest) = .ok (i, rest') ∧ i.size = 2) ∧
    (op ∈ ([0x00, 0x04, 0x05, 0x06, 0x14, 0x15, 0x16, 0x20, 0x21, 0x40, 0x41, 0xFF] : List Byte) →
      ∃ i, decode (op :: rest) = .ok (i, rest) ∧ i.size = 1) ∧
    (op ∉ ([0x01, 0x02, 0x03, 0x11, 0x12, 0x13, 0x22, 0x30, 0x31, 0x32] : List Byte) →
      op ∉ ([0x00, 0x04, 0x05, 0x06, 0x14, 0x15, 0x16, 0x20, 0x21, 0x40, 0x41, 0xFF] : List Byte) →
      decode (op :: rest) = .error (.illegalOpcode op))

/-- R70 to R73, R75: for every list of bytes, decoding answers `i` with `rest` exactly when the bytes are the encoding of `i`
followed by `rest`: no bit of an encoding is dropped, and no other bytes decode to it. -/
def Obligations.DecodeAndEncodeAgree : Prop :=
  ∀ (bytes rest : List Byte) (i : Instr), decode bytes = .ok (i, rest) ↔ bytes = encode i ++ rest

/-- R75 (decision D1): one word of each family, written out from the table, decodes to its instruction. -/
def Obligations.WordsOfTheTableDecode : Prop :=
  decode [0b00000000] = .ok (.nop, []) ∧ decode [0b00000001, 0b00000101] = .ok (.ldaAddr 5, []) ∧
  decode [0b00000110] = .ok (.ldcInd, []) ∧ decode [0b00010010, 0b11110001] = .ok (.stbAddr 0xF1, []) ∧
  decode [0b00010100] = .ok (.staInd, []) ∧ decode [0b00100001] = .ok (.dec, []) ∧
  decode [0b00100010, 0b10000000] = .ok (.con 0x80, []) ∧ decode [0b00110001, 0b00011010] = .ok (.jz 0x1A, []) ∧
  decode [0b01000001] = .ok (.swc, []) ∧ decode [0b11111111] = .ok (.hcf, [])

/-- R75 (decision D1): the opcode, size and cost columns, row by row, whatever the operand byte. -/
def Obligations.OpcodeTableColumns : Prop :=
  ∀ x : Byte,
    [Instr.nop, .ldaAddr x, .ldbAddr x, .ldcAddr x, .ldaInd, .ldbInd, .ldcInd, .staAddr x, .stbAddr x, .stcAddr x,
     .staInd, .stbInd, .stcInd, .inc, .dec, .con x, .jp x, .jz x, .jnz x, .swb, .swc, .hcf].map
        (fun i => ((encode i).headD 0, i.size, i.cost)) =
      [(0x00, 1, 1), (0x01, 2, 1), (0x02, 2, 1), (0x03, 2, 1), (0x04, 1, 2), (0x05, 1, 2), (0x06, 1, 2),
       (0x11, 2, 1), (0x12, 2, 1), (0x13, 2, 1), (0x14, 1, 2), (0x15, 1, 2), (0x16, 1, 2),
       (0x20, 1, 2), (0x21, 1, 2), (0x22, 2, 1), (0x30, 2, 2), (0x31, 2, 3), (0x32, 2, 3),
       (0x40, 1, 1), (0x41, 1, 1), (0xFF, 1, 1)]

/-! ### NOP, arithmetic, jumps, swaps, halt: each result is an equation, so it is the frame too -/

/-- R100, R142: NOP changes pc and cycle alone; CON writes its operand byte, unmodified, to A. -/
def Obligations.NopAndConResults : Prop :=
  ∀ (s : State) (x : Byte),
    exec .nop s = .next { s with pc := s.pc + 1, cycle := s.cycle + 1 } ∧
    exec (.con x) s = .next { s with a := x, pc := s.pc + 2, cycle := s.cycle + 1 } ∧
    encode .nop = [0x00] ∧ encode (.con x) = [0x22, x]

/-- R140, R141: INC and DEC add and subtract 1 modulo 256, at every value of A; no flag, no other register; after a DEC of 0x01
JZ is taken and JNZ is not (R151, R152), at cost 3 either way (decision D8, log 8). -/
def Obligations.IncDecResults : Prop :=
  encode .inc = [0x20] ∧ encode .dec = [0x21] ∧
  ∀ s : State,
    exec .inc s =
      .next { s with a := BitVec.ofNat 8 ((s.a.toNat + 1) % 256), pc := s.pc + 1, cycle := s.cycle + 2 } ∧
    exec .dec s =
      .next { s with a := BitVec.ofNat 8 ((s.a.toNat + 255) % 256), pc := s.pc + 1, cycle := s.cycle + 2 } ∧
    (s.a = 0x01 → ∃ t, exec .dec s = .next t ∧ ∀ x : Byte,
      exec (.jz x) t = .next { t with pc := x, cycle := t.cycle + 3 } ∧
      exec (.jnz x) t = .next { t with pc := t.pc + 2, cycle := t.cycle + 3 })

/-- R150: JP sends control to its operand byte, any value, and costs 2; a target at 0xF0 to 0xFF retires the jump and faults
IllegalAddress in the next step (if that is not cancelled) (the fault leaves pc and cycle: decision D6). -/
def Obligations.JumpResult : Prop :=
  (∀ (s : State) (x : Byte), exec (.jp x) s = .next { s with pc := x, cycle := s.cycle + 2 } ∧ encode (.jp x) = [0x30, x]) ∧
  ∀ (s : State) (x : Byte), s.Ready → s.Holds (.jp x) → 0xF0 ≤ x.toNat →
    ∃ t, step s = .next t ∧ t.status = .running ∧ t.pc = x ∧ t.cycle = s.cycle + 2 ∧
      (t.cancelNow = false →
        ∃ u, step t = .next u ∧ u.status = .faulted .illegalAddress ∧ u.pc = x ∧ u.cycle = s.cycle + 2)

/-- R151, R152 (decision D8): JZ jumps when A is zero, JNZ when it is not; otherwise control goes on past the two bytes; the cost
is 3 either way, and A is unchanged. -/
def Obligations.ConditionalJumpResults : Prop :=
  ∀ (s : State) (x : Byte),
    exec (.jz x) s = .next { s with pc := if s.a.toNat = 0 then x else s.pc + 2, cycle := s.cycle + 3 } ∧
    exec (.jnz x) s = .next { s with pc := if s.a.toNat = 0 then s.pc + 2 else x, cycle := s.cycle + 3 } ∧
    encode (.jz x) = [0x31, x] ∧ encode (.jnz x) = [0x32, x]

/-- R160, R161: SWB and SWC exchange A with B and with C from the values at the start of the step; two SWB restore both
registers at cost 2; SWB, SWC, SWB exchange B and C and leave A, at cost 3. -/
def Obligations.SwapResults : Prop :=
  encode .swb = [0x40] ∧ encode .swc = [0x41] ∧
  ∀ s : State,
    exec .swb s = .next { s with a := s.b, b := s.a, pc := s.pc + 1, cycle := s.cycle + 1 } ∧
    exec .swc s = .next { s with a := s.c, c := s.a, pc := s.pc + 1, cycle := s.cycle + 1 } ∧
    (∃ t, exec .swb s = .next t ∧ exec .swb t = .next { s with pc := s.pc + 2, cycle := s.cycle + 2 }) ∧
    (∃ t u, exec .swb s = .next t ∧ exec .swc t = .next u ∧
      exec .swb u = .next { s with b := s.c, c := s.b, pc := s.pc + 3, cycle := s.cycle + 3 })

/-- R170 (decision D7): HCF retires (pc and cycle one higher) and sets Halted, nothing else; the halted machine takes no
further step (decision D18). -/
def Obligations.HaltResult : Prop :=
  encode .hcf = [0xFF] ∧
  ∀ s : State,
    exec .hcf s = .next { s with pc := s.pc + 1, cycle := s.cycle + 1, status := .halted } ∧
    (s.Ready → s.Holds .hcf → ∃ t, step s = .next t ∧ t.status = .halted ∧ step t = .next t)

/-! ### Loads and stores -/

/-- R101 to R107: each of the six loads, reading in ROM or RAM, puts the byte read in its register and changes nothing else but
pc and cycle. -/
def Obligations.LoadResults : Prop :=
  ∀ (s : State) (opnd x v : Byte) (i : Instr) (r : Reg), (i, r, x) ∈ loadForms opnd s → x.toNat < 0xF0 →
    memRead s x = .ok v →
    exec i s =
      .next { s with
        a := if r = .a then v else s.a
        b := if r = .b then v else s.b
        c := if r = .c then v else s.c
        pc := s.pc + BitVec.ofNat 8 i.size
        cycle := s.cycle + i.cost }

/-- R107, R44, R202, R215, R301 (decisions D2, D3, D6, D27): each of the six loads at 0xF0 to 0xFF, device registers among
them, takes IllegalAddress and changes nothing else. -/
def Obligations.LoadsOutsideStorageFault : Prop :=
  ∀ (s : State) (opnd x : Byte) (i : Instr) (r : Reg), (i, r, x) ∈ loadForms opnd s → 0xF0 ≤ x.toNat →
    exec i s = .next { s with status := .faulted .illegalAddress }

/-- R120 to R126, R57: each of the six stores, writing in RAM, changes that one byte, pc and cycle; every byte, fetched or
loaded, reads as before but the one at the address stored to, which reads as the value stored. -/
def Obligations.StoreToRamResults : Prop :=
  ∀ (s : State) (opnd x v : Byte) (i : Instr), (i, x, v) ∈ storeForms opnd s → 0x80 ≤ x.toNat → x.toNat < 0xF0 →
    ∃ t, exec i s = .next t ∧
      t = { s with mem := t.mem, pc := s.pc + BitVec.ofNat 8 i.size, cycle := s.cycle + i.cost } ∧
      (s.mem.wf → t.mem.wf ∧ ∀ y, memRead t y = if y = x then .ok v else memRead s y)

/-- R200, R203 (decision D20): each of the six stores at 0xF1 appends its byte to the output, once, and changes nothing else but
pc and cycle, in both variants, Armed or Idle. -/
def Obligations.StoreToOutputResults : Prop :=
  ∀ (s : State) (opnd v : Byte) (i : Instr), (i, 0xF1, v) ∈ storeForms opnd s →
    exec i s =
      .next { s with out := s.out ++ [v], pc := s.pc + BitVec.ofNat 8 i.size, cycle := s.cycle + i.cost }

/-- R302: every write into ROM raises ProtectedWrite, whatever the value and whoever writes: each of the six stores, the write
path itself, and a copy landing in ROM; ROM is unchanged. That a copy with DST in ROM has written nothing when it faults (R232)
rests on the ascending order of its writes (decision D11, log 14). -/
def Obligations.WritesToRomFault : Prop :=
  (∀ (s : State) (opnd x v : Byte) (i : Instr), (i, x, v) ∈ storeForms opnd s → x.toNat < 0x80 →
    ∃ t, exec i s = .next t ∧ t.status = .faulted .protectedWrite ∧ t.mem = s.mem) ∧
  (∀ (now : Nat) (x v : Byte) (s : State), x.toNat < 0x80 → memWrite now x v s = .raised .protectedWrite s) ∧
  (∀ (now : Nat) (s : State) (e : Engine), s.engine = some e → e.dst.toNat < 0x80 →
    engineCopy now s = .raised .protectedWrite s)

/-- R301, R42, R43, R46, R216 (decisions D6, D27): each of the six stores at 0xF0 or 0xF6 to 0xFF, and in the base variant at
0xF2 to 0xF5 too, takes IllegalAddress and changes nothing else. -/
def Obligations.StoresToUnmappedFault : Prop :=
  ∀ (s : State) (opnd x v : Byte) (i : Instr), (i, x, v) ∈ storeForms opnd s →
    (x = 0xF0 ∨ 0xF6 ≤ x.toNat ∨ (s.variant = .base ∧ 0xF2 ≤ x.toNat ∧ x.toNat ≤ 0xF5)) →
    exec i s = .next { s with status := .faulted .illegalAddress }

/-- R57 (decision D4): a byte that a retired store has put in RAM is what the very next step fetches when control reaches it:
if it is the opcode of a one-byte instruction, that instruction runs. -/
def Obligations.StoreIsSeenByTheNextFetch : Prop :=
  ∀ (s t : State) (opnd x v : Byte) (i j : Instr), s.mem.wf → s.Ready → s.Holds i →
    (i, x, v) ∈ storeForms opnd s → 0x80 ≤ x.toNat → x.toNat < 0xF0 → decode [v] = .ok (j, []) →
    step s = .next t → t.pc = x → t.cancelNow = false → step t = exec j { t with cancelIn := t.cancelIn.tail }

/-- R107, R126, R143, R235: no instruction but the six stores changes memory, output or the engine, in any form. -/
def Obligations.OnlyStoresReachMemoryAndDevices : Prop :=
  ∀ (i : Instr) (s t : State), isStore i = false → exec i s = .next t →
    t.mem = s.mem ∧ t.out = s.out ∧ t.engine = s.engine

/-- R126: no store writes a register, in any form, at any address, whatever the device does with it. -/
def Obligations.StoresWriteNoRegister : Prop :=
  ∀ (i : Instr) (s t : State), isStore i = true → exec i s = .next t → t.a = s.a ∧ t.b = s.b ∧ t.c = s.c

/-- R81: a step that does not fault writes pc and adds the cost of the opcode to `cycle`, and the cost depends on the opcode
alone: not on the operand, the address region, whether a jump is taken, or what a device does with a write. -/
def Obligations.RetirementAddsTheFixedCost : Prop :=
  (∀ i j : Instr, i.opcode = j.opcode → i.cost = j.cost) ∧
  ∀ (i : Instr) (s t : State), s.status = .running → exec i s = .next t →
    (∃ f, t.status = .faulted f) ∨
    (t.cycle = s.cycle + i.cost ∧ (t.pc = s.pc + BitVec.ofNat 8 i.size ∨ i.operand = some t.pc))

/-! ### The block transfer engine -/

/-- R82 (decision D5; log 7): under `pre` a device write observes the cycle count of the start of the step, under `post` that
count plus the storing instruction's own cost. -/
def Obligations.DeviceObservesTheSampledCycle : Prop :=
  ∀ (s : State) (cost : Nat),
    (s.cycleSample = .pre → s.now cost = s.cycle) ∧ (s.cycleSample = .post → s.now cost = s.cycle + cost)

/-- R211, R212, R213: `MemWrite` at DST or SRC while Idle writes that register, any value, and nothing else; at DST, SRC or GO
while Armed it raises EngineBusy and changes nothing. So for each of the six stores: it writes the register and retires, or
takes EngineBusy with the engine's state unchanged. -/
def Obligations.DstSrcWritesAndBusy : Prop :=
  (∀ (now : Nat) (x v : Byte) (s : State) (e : Engine), s.engine = some e →
    (e.inProgress = false → x = 0xF2 → memWrite now x v s = .done { s with engine := some { e with dst := v } }) ∧
    (e.inProgress = false → x = 0xF3 → memWrite now x v s = .done { s with engine := some { e with src := v } }) ∧
    (e.inProgress = true → (x = 0xF2 ∨ x = 0xF3 ∨ x = 0xF4) → memWrite now x v s = .raised .engineBusy s)) ∧
  ∀ (s : State) (opnd x v : Byte) (i : Instr) (e : Engine), (i, x, v) ∈ storeForms opnd s → s.engine = some e →
    (e.inProgress = false → x = 0xF2 →
      exec i s = .next { s with
        engine := some { e with dst := v }, pc := s.pc + BitVec.ofNat 8 i.size, cycle := s.cycle + i.cost }) ∧
    (e.inProgress = false → x = 0xF3 →
      exec i s = .next { s with
        engine := some { e with src := v }, pc := s.pc + BitVec.ofNat 8 i.size, cycle := s.cycle + i.cost }) ∧
    (e.inProgress = true → (x = 0xF2 ∨ x = 0xF3 ∨ x = 0xF4) →
      ∃ t, exec i s = .next t ∧ t.status = .faulted .engineBusy ∧ t.engine = s.engine)

/-- R214 (decision D12): while Idle each of the six stores at GO, whatever the value, arms the engine with index 5 and the
recorded cycle `now`; DST and SRC are kept. -/
def Obligations.GoArmsTheEngine : Prop :=
  ∀ (s : State) (opnd v : Byte) (i : Instr) (e : Engine), (i, 0xF4, v) ∈ storeForms opnd s → s.engine = some e →
    e.inProgress = false →
    exec i s = .next { s with
      engine := some { e with inProgress := true, index := 5, refCycle := s.now i.cost }
      pc := s.pc + BitVec.ofNat 8 i.size
      cycle := s.cycle + i.cost }

/-- R221, R222, R305, R306, R315 (decisions D6, D9): a poke while Idle takes EngineNotArmed, whatever the value; a poke while
Armed of a byte other than the index takes EngineIndexMismatch, whatever the time; nothing else changes. -/
def Obligations.WrongPokesFault : Prop :=
  ∀ (s : State) (opnd v : Byte) (i : Instr) (e : Engine), (i, 0xF5, v) ∈ storeForms opnd s → s.engine = some e →
    (e.inProgress = false → exec i s = .next { s with status := .faulted .engineNotArmed }) ∧
    (e.inProgress = true → v ≠ e.index → exec i s = .next { s with status := .faulted .engineIndexMismatch })

/-- R223, R224, R225: the poke of the expected index. When the index is 5 it is accepted at any time; otherwise it is accepted at
exactly `ref_cycle + 36`, and takes EngineTimingEarly before and EngineTimingLate after, the engine unchanged. Acceptance
lowers the index by one and records the cycle: at once when the index was not 1, and before the copy begins when it was; that
copy is made while still Armed (R226; decision D10, log 14). -/
def Obligations.PokesAreAcceptedExactlyOnTime : Prop :=
  ∀ (s : State) (opnd v : Byte) (i : Instr) (e : Engine), (i, 0xF5, v) ∈ storeForms opnd s → s.engine = some e →
    e.inProgress = true → v = e.index →
    (e.index ≠ 5 → s.now i.cost < e.refCycle + 36 →
      ∃ t, exec i s = .next t ∧ t.status = .faulted .engineTimingEarly ∧ t.engine = s.engine) ∧
    (e.index ≠ 5 → e.refCycle + 36 < s.now i.cost →
      ∃ t, exec i s = .next t ∧ t.status = .faulted .engineTimingLate ∧ t.engine = s.engine) ∧
    ((e.index = 5 ∨ s.now i.cost = e.refCycle + 36) →
      (e.index ≠ 1 →
        exec i s = .next { s with
          engine := some { e with index := e.index - 1, refCycle := s.now i.cost }
          pc := s.pc + BitVec.ofNat 8 i.size
          cycle := s.cycle + i.cost }) ∧
      (e.index = 1 →
        memWrite (s.now i.cost) 0xF5 v s =
          completeTransfer (engineCopy (s.now i.cost))
            { s with engine := some { e with index := 0, refCycle := s.now i.cost } }))

/-- R226, R230, R233 (decisions D10, D11, D13): with DST in 0x80 to 0xD0 the accepted poke of 1 completes the transfer: the 32
bytes at DST read as the payload if SRC equals MAGIC and as 0x00 otherwise, every other byte as before; the engine is Idle with
index 0, DST and SRC kept; the store retires with its own cost. -/
def Obligations.TransferCompletes : Prop :=
  ∀ (s : State) (opnd : Byte) (i : Instr) (e : Engine), (i, 0xF5, 1) ∈ storeForms opnd s → s.engine = some e →
    e.inProgress = true → e.index = 1 → s.now i.cost = e.refCycle + 36 → 0x80 ≤ e.dst.toNat → e.dst.toNat ≤ 0xD0 →
    ∃ t, exec i s = .next t ∧
      t = { s with
        mem := t.mem
        engine := some { e with inProgress := false, index := 0, refCycle := s.now i.cost }
        pc := s.pc + BitVec.ofNat 8 i.size
        cycle := s.cycle + i.cost } ∧
      (s.mem.wf → t.mem.wf ∧
        (∀ k : Fin 32, memRead t (e.dst + BitVec.ofNat 8 k) = .ok (if e.src = e.magic then e.payload[k] else 0x00)) ∧
        ∀ y : Byte, y.toNat < e.dst.toNat ∨ e.dst.toNat + 32 ≤ y.toNat → memRead t y = memRead s y)

/-- R231, R232 (decisions D6, D10, D11): the outcome of the accepted poke of 1 for every DST outside 0x80 to 0xD0: the fault kind,
the bytes written before it, the engine left Armed with index 0; registers, pc and cycle as they were. -/
def Obligations.TransferFaultsByDestination : Prop :=
  ∀ (s : State) (opnd : Byte) (i : Instr) (e : Engine), (i, 0xF5, 1) ∈ storeForms opnd s → s.engine = some e →
    e.inProgress = true → e.index = 1 → s.now i.cost = e.refCycle + 36 →
    let left : State := { s with engine := some { e with index := 0, refCycle := s.now i.cost } }
    (e.dst.toNat < 0x80 → exec i s = .next { left with status := .faulted .protectedWrite }) ∧
    (0xD1 ≤ e.dst.toNat → e.dst.toNat ≤ 0xEF →
      ∃ t, exec i s = .next t ∧ t = { left with mem := t.mem, status := .faulted .illegalAddress } ∧
        (s.mem.wf → t.mem.wf ∧
          (∀ k : Fin 32, e.dst.toNat + k < 0xF0 →
            memRead t (e.dst + BitVec.ofNat 8 k) = .ok (if e.src = e.magic then e.payload[k] else 0x00)) ∧
          ∀ y : Byte, y.toNat < e.dst.toNat → memRead t y = memRead s y)) ∧
    (e.dst = 0xF0 ∨ 0xF6 ≤ e.dst.toNat → exec i s = .next { left with status := .faulted .illegalAddress }) ∧
    (e.dst = 0xF1 →
      exec i s = .next { left with
        out := s.out ++ [if e.src = e.magic then e.payload[(0 : Fin 32)] else 0x00], status := .faulted .engineBusy }) ∧
    (e.dst = 0xF2 ∨ e.dst = 0xF3 ∨ e.dst = 0xF4 → exec i s = .next { left with status := .faulted .engineBusy }) ∧
    (e.dst = 0xF5 →
      exec i s = .next { left with
        status := .faulted (if e.src = e.magic ∧ e.payload[(0 : Fin 32)] ≠ 0x00
          then .engineIndexMismatch else .engineTimingEarly) })

/-- R45, R230 (the model's form of it, log 19): the copy is the loop of R230 over the one write path `MemWrite`, whole. -/
def Obligations.CopyUsesTheOneWritePath : Prop :=
  ∀ (now : Nat) (s : State) (e : Engine), s.engine = some e → e.inProgress = true → e.index = 0 → e.refCycle = now →
    engineCopy now s = copyLoop (memWrite now) e.dst e.copyBytes s

/-- R210, R214, R223 to R226, R231, R235, R411: over all instructions, the engine changes only as the handshake says: not at all; a
write of DST or SRC, or GO, while Idle; or a poke accepted while Armed, which for every index but 5 is at exactly
`ref_cycle + 36`. A completed transfer keeps DST and SRC (decision D13); a copy that faults leaves the engine Armed with index 0
(decisions D10, D11); all three are log 14. -/
def Obligations.EngineMovesOnlyByTheHandshake : Prop :=
  ∀ (s t : State) (e e' : Engine), step s = .next t → s.engine = some e → t.engine = some e' → e' ≠ e →
    ∃ i, s.Holds i ∧ isStore i = true ∧
      ((e.inProgress = false ∧
        ((∃ v, e' = { e with dst := v }) ∨ (∃ v, e' = { e with src := v }) ∨
          e' = { e with inProgress := true, index := 5, refCycle := s.now i.cost })) ∨
       (e.inProgress = true ∧ (e.index ≠ 5 → s.now i.cost = e.refCycle + 36) ∧
        (e' = { e with index := e.index - 1, refCycle := s.now i.cost } ∨
         (e.index = 1 ∧ e' = { e with inProgress := false, index := 0, refCycle := s.now i.cost }))))

/-- R27, R107, R235: MAGIC and SECRET_PAYLOAD reach nothing but the copy. Whatever other values they have, a step gives the same
next state (with those values) unless the poke of 1 is expected; and then it does if the 32 bytes to copy are the same. -/
def Obligations.SecretsReachOnlyTheCopy : Prop :=
  ∀ (s t : State) (magic : Byte) (payload : Vector Byte 32),
    (∀ e, s.engine = some e → e.inProgress = true → e.index = 1 →
      (if e.src = magic then payload.toList else List.replicate 32 0x00) =
        if e.src = e.magic then e.payload.toList else List.replicate 32 0x00) →
    step s = .next t → step (s.withSecrets magic payload) = .next (t.withSecrets magic payload)

/-- R22, R216 (decision D27): a machine of the base variant stays one, and no step of it raises an engine fault. -/
def Obligations.BaseVariantHasNoEngine : Prop :=
  ∀ s t : State, s.variant = .base → s.status = .running → step s = .next t →
    t.variant = .base ∧
    ∀ f ∈ [Fault.engineBusy, .engineNotArmed, .engineIndexMismatch, .engineTimingEarly, .engineTimingLate],
      t.status ≠ .faulted f

/-- R27, R36, R235: over a run of any length, the host's view of the machine is the same whatever other MAGIC and payload it
has, as long as no copy on the way would write other bytes. -/
def Obligations.RunsRevealOnlyWhatIsCopied : Prop :=
  ∀ (n : Nat) (s t : State) (magic : Byte) (payload : Vector Byte 32),
    (∀ (k : Nat) (u : State) (e : Engine), k < n → Host.Core.run Sys2Proof.core k s = .next u → u.engine = some e →
      e.inProgress = true → e.index = 1 →
      (if e.src = magic then payload.toList else List.replicate 32 0x00) =
        if e.src = e.magic then e.payload.toList else List.replicate 32 0x00) →
    Host.Core.run Sys2Proof.core n s = .next t →
    ∃ t' : State, Host.Core.run Sys2Proof.core n (s.withSecrets magic payload) = .next t' ∧ t'.hostView = t.hostView
end

