-- ==== Sys2Proof/Laws/Decode.lean ====
section
/-! SUPPORT. Decoding the encoder's bytes, and what `decode` makes of one or two bytes. -/

namespace Sys2Proof

/-- The word type is as wide as the configuration says (R4, XLEN). -/
theorem byte_width : Byte = BitVec params.xlen := rfl

/-- Decoding an encoded instruction gives it back with the bytes after it. -/
theorem decode_encode_append (i : Instr) (rest : List Byte) : decode (encode i ++ rest) = .ok (i, rest) := by
  cases i <;> rfl

/-- The size column is the length of the encoding (R70, R71). -/
theorem encode_length (i : Instr) : (encode i).length = i.size := by cases i <;> rfl

theorem Instr.size_eq (i : Instr) : i.size = 1 ∨ i.size = 2 := by
  cases i <;> first | exact .inl rfl | exact .inr rfl

theorem Instr.cost_pos (i : Instr) : 1 ≤ i.cost ∧ i.cost ≤ 3 := by
  cases i <;> simp [Instr.cost, Instr.row, opcodeColumns]

/-- What the two opcode tables answer is right: the opcode of the instruction they give is the opcode asked about. -/
theorem decodeF1_opcode {op : Byte} {i : Instr} (h : decodeF1 op = some i) : encode i = [op] := by
  revert h
  unfold decodeF1
  split <;> rintro h <;> cases h <;>
    (rename_i hn; exact congrArg (· :: []) (BitVec.eq_of_toNat_eq (by rw [hn]; rfl)))

theorem decodeF2_opcode {op : Byte} {make : Byte → Instr} (h : decodeF2 op = some make) (x : Byte) :
    encode (make x) = [op, x] := by
  revert h
  unfold decodeF2
  split <;> rintro h <;> cases h <;>
    (rename_i hn; exact congrArg (· :: [x]) (BitVec.eq_of_toNat_eq (by rw [hn]; rfl)))

/-- An opcode is illegal exactly when neither table has it. -/
theorem decode_illegal_iff {op : Byte} :
    (∀ rest, decode (op :: rest) = .error (.illegalOpcode op)) ↔ decodeF1 op = none ∧ (decodeF2 op).isNone = true := by
  constructor
  · intro h
    have h0 := h []
    unfold decode at h0
    cases h1 : decodeF1 op <;> cases h2 : decodeF2 op <;> simp_all
  · rintro ⟨h1, h2⟩ rest
    cases h3 : decodeF2 op <;> simp_all [decode]

end Sys2Proof
end

