-- ==== Sys2Proof/Laws/Memory.lean ====
section
/-! SUPPORT. Laws of the canonical memory: read after write, and every operation keeps the form. -/

namespace Sys2Proof.Machine

/-- ROM and RAM as the spec's numbers lay them out (R40): together, the 240 addresses below 0xF0. -/
theorem inRom_iff {x : Nat} : InRom x ↔ x < 0x80 := by simp [InRom]
theorem inRam_iff {x : Nat} : InRam x ↔ 0x80 ≤ x ∧ x < 0xF0 := by simp [InRam]
theorem inStorage_iff {x : Nat} : InStorage x ↔ x < 0xF0 := by
  rw [InStorage, inRom_iff, inRam_iff]
  omega

theorem Memory.wf_nil : Memory.wf [] := by
  constructor <;> simp

theorem Memory.wf_cons {k : Nat} {w : Byte} {m : Memory} :
    Memory.wf ((k, w) :: m) ↔ (∀ p ∈ m, k < p.1) ∧ (InStorage k ∧ w ≠ Memory.blank) ∧ m.wf := by
  simp only [Memory.wf, List.pairwise_cons, List.forall_mem_cons]
  tauto

/-- Below every listed address nothing is listed. -/
theorem Memory.read_of_lt {m : Memory} {x : Nat} (h : ∀ p ∈ m, x < p.1) : m.read x = Memory.blank := by
  induction m with
  | nil => rfl
  | cons p m ih =>
    obtain ⟨k, w⟩ := p
    have hk : x < k := h (k, w) (by simp)
    rw [Memory.read, if_neg (by omega)]
    exact ih fun q hq => h q (by simp [hq])

/-- A write lists no address but those listed before and its own. -/
theorem Memory.mem_write {m : Memory} {x : Nat} {v : Byte} {p : Host.Cell} (h : p ∈ m.write x v) :
    p ∈ m ∨ (p = (x, v) ∧ v ≠ Memory.blank) := by
  induction m with
  | nil =>
    rw [Memory.write] at h
    split at h <;> simp_all
  | cons q m ih =>
    obtain ⟨k, w⟩ := q
    rw [Memory.write] at h
    split at h
    · split at h <;> (simp_all; try tauto)
    · split at h
      · split at h <;> (simp_all; try tauto)
      · rcases List.mem_cons.mp h with h | h
        · simp [h]
        · rcases ih h with h | h <;> simp_all

/-- A write of a storage address keeps the canonical form. -/
theorem Memory.write_wf {m : Memory} {x : Nat} {v : Byte} (hx : x < 0xF0) (h : m.wf) : (m.write x v).wf := by
  induction m with
  | nil =>
    rw [Memory.write]
    split
    · exact h
    · exact Memory.wf_cons.mpr ⟨by simp, ⟨inStorage_iff.mpr hx, ‹_›⟩, h⟩
  | cons q m ih =>
    obtain ⟨k, w⟩ := q
    have hc := Memory.wf_cons.mp h
    rw [Memory.write]
    split
    · rename_i hlt
      split
      · exact h
      · refine Memory.wf_cons.mpr ⟨fun p hp => ?_, ⟨inStorage_iff.mpr hx, ‹_›⟩, h⟩
        rcases List.mem_cons.mp hp with rfl | hp
        · exact hlt
        · exact lt_trans hlt (hc.1 p hp)
    · split
      · subst x
        split
        · exact hc.2.2
        · exact Memory.wf_cons.mpr ⟨hc.1, ⟨inStorage_iff.mpr hx, ‹_›⟩, hc.2.2⟩
      · refine Memory.wf_cons.mpr ⟨fun p hp => ?_, hc.2.1, ih hc.2.2⟩
        rcases Memory.mem_write hp with hp | ⟨rfl, -⟩
        · exact hc.1 p hp
        · simp; omega

/-- A write leaves every other address alone, whatever the memory. -/
theorem Memory.read_write_ne {m : Memory} {x y : Nat} {v : Byte} (h : y ≠ x) : (m.write x v).read y = m.read y := by
  induction m with
  | nil =>
    rw [Memory.write]
    split <;> simp [Memory.read, h]
  | cons q m ih =>
    obtain ⟨k, w⟩ := q
    rw [Memory.write]
    split
    · split <;> simp [Memory.read, h]
    · split
      · subst x
        split <;> simp [Memory.read, h]
      · simp [Memory.read, ih]

/-- Read after write: the address written reads the value written, every other reads as before. -/
theorem Memory.read_write {m : Memory} (h : m.wf) (x y : Nat) (v : Byte) :
    (m.write x v).read y = if y = x then v else m.read y := by
  induction m with
  | nil =>
    rw [Memory.write]
    split
    · split <;> simp_all [Memory.read]
    · simp [Memory.read]
  | cons q m ih =>
    obtain ⟨k, w⟩ := q
    have hc := Memory.wf_cons.mp h
    rw [Memory.write]
    split
    · rename_i hlt
      split
      · split
        · subst_vars
          exact Memory.read_of_lt fun p hp => by
            rcases List.mem_cons.mp hp with rfl | hp
            · exact hlt
            · exact lt_trans hlt (hc.1 p hp)
        · rfl
      · rfl
    · split
      · subst x
        split
        · subst v
          by_cases hy : y = k
          · subst hy
            simpa using Memory.read_of_lt hc.1
          · simp [Memory.read, hy]
        · by_cases hy : y = k <;> simp [Memory.read, hy]
      · by_cases hy : y = k
        · subst hy
          rw [if_neg (by omega)]
          simp [Memory.read]
        · simp only [Memory.read, hy, if_false]
          exact ih hc.2.2

/-- Loading a block inside the storage keeps the canonical form. -/
theorem Memory.load_wf {m : Memory} {x : Nat} {vs : List Byte} (hx : x + vs.length ≤ 0xF0) (h : m.wf) :
    (m.load x vs).wf := by
  induction vs generalizing m x with
  | nil => exact h
  | cons v vs ih =>
    rw [List.length_cons] at hx
    exact ih (by omega) (Memory.write_wf (by omega) h)

/-- What a loaded block reads as, and that nothing else changed. -/
theorem Memory.read_load {m : Memory} {x : Nat} {vs : List Byte} (hx : x + vs.length ≤ 0xF0) (h : m.wf) (y : Nat) :
    (m.load x vs).read y = if x ≤ y ∧ y < x + vs.length then vs.getD (y - x) 0x00 else m.read y := by
  induction vs generalizing m x with
  | nil =>
    rw [if_neg (by simp)]
    rfl
  | cons v vs ih =>
    rw [List.length_cons] at hx
    rw [Memory.load, ih (by omega) (Memory.write_wf (by omega) h), Memory.read_write h]
    by_cases h1 : y = x
    · subst h1
      rw [if_neg (by omega), if_pos rfl, if_pos (by simp)]
      simp
    · rw [if_neg h1]
      by_cases h2 : x + 1 ≤ y ∧ y < x + 1 + vs.length
      · rw [if_pos h2, if_pos (by rw [List.length_cons]; omega)]
        obtain ⟨d, hd⟩ : ∃ d, y - x = d + 1 := ⟨y - x - 1, by omega⟩
        rw [hd, List.getD_cons_succ, show y - (x + 1) = d by omega]
      · rw [if_neg h2, if_neg (by rw [List.length_cons]; omega)]

end Sys2Proof.Machine
end

