-- ==== Sys2Proof/Laws/State.lean ====
section
/-! SUPPORT. One lemma per field per named update of the state. -/

namespace Sys2Proof.Machine

@[simp] theorem State.setReg_a (s : State) (v : Byte) : s.setReg .a v = { s with a := v } := rfl
@[simp] theorem State.setReg_b (s : State) (v : Byte) : s.setReg .b v = { s with b := v } := rfl
@[simp] theorem State.setReg_c (s : State) (v : Byte) : s.setReg .c v = { s with c := v } := rfl
@[simp] theorem State.setReg_pc (s : State) (r : Reg) (v : Byte) : (s.setReg r v).pc = s.pc := by cases r <;> rfl
@[simp] theorem State.setReg_cycle (s : State) (r : Reg) (v : Byte) : (s.setReg r v).cycle = s.cycle := by cases r <;> rfl
@[simp] theorem State.setReg_mem (s : State) (r : Reg) (v : Byte) : (s.setReg r v).mem = s.mem := by cases r <;> rfl
@[simp] theorem State.setReg_out (s : State) (r : Reg) (v : Byte) : (s.setReg r v).out = s.out := by cases r <;> rfl
@[simp] theorem State.setReg_status (s : State) (r : Reg) (v : Byte) : (s.setReg r v).status = s.status := by cases r <;> rfl
@[simp] theorem State.setReg_engine (s : State) (r : Reg) (v : Byte) : (s.setReg r v).engine = s.engine := by cases r <;> rfl
@[simp] theorem State.setReg_cycleSample (s : State) (r : Reg) (v : Byte) : (s.setReg r v).cycleSample = s.cycleSample := by cases r <;> rfl
@[simp] theorem State.setReg_cancelIn (s : State) (r : Reg) (v : Byte) : (s.setReg r v).cancelIn = s.cancelIn := by cases r <;> rfl

/-- The register written reads the value, the others as before. -/
@[simp] theorem State.reg_setReg (s : State) (r q : Reg) (v : Byte) :
    (s.setReg r v).reg q = if q = r then v else s.reg q := by
  cases r <;> cases q <;> rfl

@[simp] theorem State.reg_a (s : State) : s.reg .a = s.a := rfl
@[simp] theorem State.reg_b (s : State) : s.reg .b = s.b := rfl
@[simp] theorem State.reg_c (s : State) : s.reg .c = s.c := rfl

@[simp] theorem State.storeByte_a (s : State) (x : Nat) (v : Byte) : (s.storeByte x v).a = s.a := rfl
@[simp] theorem State.storeByte_b (s : State) (x : Nat) (v : Byte) : (s.storeByte x v).b = s.b := rfl
@[simp] theorem State.storeByte_c (s : State) (x : Nat) (v : Byte) : (s.storeByte x v).c = s.c := rfl
@[simp] theorem State.storeByte_pc (s : State) (x : Nat) (v : Byte) : (s.storeByte x v).pc = s.pc := rfl
@[simp] theorem State.storeByte_cycle (s : State) (x : Nat) (v : Byte) : (s.storeByte x v).cycle = s.cycle := rfl
@[simp] theorem State.storeByte_mem (s : State) (x : Nat) (v : Byte) : (s.storeByte x v).mem = s.mem.write x v := rfl
@[simp] theorem State.storeByte_out (s : State) (x : Nat) (v : Byte) : (s.storeByte x v).out = s.out := rfl
@[simp] theorem State.storeByte_status (s : State) (x : Nat) (v : Byte) : (s.storeByte x v).status = s.status := rfl
@[simp] theorem State.storeByte_engine (s : State) (x : Nat) (v : Byte) : (s.storeByte x v).engine = s.engine := rfl
@[simp] theorem State.storeByte_cycleSample (s : State) (x : Nat) (v : Byte) : (s.storeByte x v).cycleSample = s.cycleSample := rfl
@[simp] theorem State.storeByte_cancelIn (s : State) (x : Nat) (v : Byte) : (s.storeByte x v).cancelIn = s.cancelIn := rfl

@[simp] theorem State.emit_a (s : State) (v : Byte) : (s.emit v).a = s.a := rfl
@[simp] theorem State.emit_b (s : State) (v : Byte) : (s.emit v).b = s.b := rfl
@[simp] theorem State.emit_c (s : State) (v : Byte) : (s.emit v).c = s.c := rfl
@[simp] theorem State.emit_pc (s : State) (v : Byte) : (s.emit v).pc = s.pc := rfl
@[simp] theorem State.emit_cycle (s : State) (v : Byte) : (s.emit v).cycle = s.cycle := rfl
@[simp] theorem State.emit_mem (s : State) (v : Byte) : (s.emit v).mem = s.mem := rfl
@[simp] theorem State.emit_out (s : State) (v : Byte) : (s.emit v).out = s.out ++ [v] := rfl
@[simp] theorem State.emit_status (s : State) (v : Byte) : (s.emit v).status = s.status := rfl
@[simp] theorem State.emit_engine (s : State) (v : Byte) : (s.emit v).engine = s.engine := rfl
@[simp] theorem State.emit_cycleSample (s : State) (v : Byte) : (s.emit v).cycleSample = s.cycleSample := rfl
@[simp] theorem State.emit_cancelIn (s : State) (v : Byte) : (s.emit v).cancelIn = s.cancelIn := rfl

@[simp] theorem State.setEngine_a (s : State) (e : Engine) : (s.setEngine e).a = s.a := rfl
@[simp] theorem State.setEngine_b (s : State) (e : Engine) : (s.setEngine e).b = s.b := rfl
@[simp] theorem State.setEngine_c (s : State) (e : Engine) : (s.setEngine e).c = s.c := rfl
@[simp] theorem State.setEngine_pc (s : State) (e : Engine) : (s.setEngine e).pc = s.pc := rfl
@[simp] theorem State.setEngine_cycle (s : State) (e : Engine) : (s.setEngine e).cycle = s.cycle := rfl
@[simp] theorem State.setEngine_mem (s : State) (e : Engine) : (s.setEngine e).mem = s.mem := rfl
@[simp] theorem State.setEngine_out (s : State) (e : Engine) : (s.setEngine e).out = s.out := rfl
@[simp] theorem State.setEngine_status (s : State) (e : Engine) : (s.setEngine e).status = s.status := rfl
@[simp] theorem State.setEngine_engine (s : State) (e : Engine) : (s.setEngine e).engine = some e := rfl
@[simp] theorem State.setEngine_cycleSample (s : State) (e : Engine) : (s.setEngine e).cycleSample = s.cycleSample := rfl
@[simp] theorem State.setEngine_cancelIn (s : State) (e : Engine) : (s.setEngine e).cancelIn = s.cancelIn := rfl

@[simp] theorem State.setStatus_a (s : State) (t : RunStatus) : (s.setStatus t).a = s.a := rfl
@[simp] theorem State.setStatus_b (s : State) (t : RunStatus) : (s.setStatus t).b = s.b := rfl
@[simp] theorem State.setStatus_c (s : State) (t : RunStatus) : (s.setStatus t).c = s.c := rfl
@[simp] theorem State.setStatus_pc (s : State) (t : RunStatus) : (s.setStatus t).pc = s.pc := rfl
@[simp] theorem State.setStatus_cycle (s : State) (t : RunStatus) : (s.setStatus t).cycle = s.cycle := rfl
@[simp] theorem State.setStatus_mem (s : State) (t : RunStatus) : (s.setStatus t).mem = s.mem := rfl
@[simp] theorem State.setStatus_out (s : State) (t : RunStatus) : (s.setStatus t).out = s.out := rfl
@[simp] theorem State.setStatus_status (s : State) (t : RunStatus) : (s.setStatus t).status = t := rfl
@[simp] theorem State.setStatus_engine (s : State) (t : RunStatus) : (s.setStatus t).engine = s.engine := rfl
@[simp] theorem State.setStatus_cycleSample (s : State) (t : RunStatus) : (s.setStatus t).cycleSample = s.cycleSample := rfl
@[simp] theorem State.setStatus_cancelIn (s : State) (t : RunStatus) : (s.setStatus t).cancelIn = s.cancelIn := rfl

@[simp] theorem State.retireTo_a (s : State) (p : Byte) (n : Nat) : (s.retireTo p n).a = s.a := rfl
@[simp] theorem State.retireTo_b (s : State) (p : Byte) (n : Nat) : (s.retireTo p n).b = s.b := rfl
@[simp] theorem State.retireTo_c (s : State) (p : Byte) (n : Nat) : (s.retireTo p n).c = s.c := rfl
@[simp] theorem State.retireTo_pc (s : State) (p : Byte) (n : Nat) : (s.retireTo p n).pc = p := rfl
@[simp] theorem State.retireTo_cycle (s : State) (p : Byte) (n : Nat) : (s.retireTo p n).cycle = s.cycle + n := rfl
@[simp] theorem State.retireTo_mem (s : State) (p : Byte) (n : Nat) : (s.retireTo p n).mem = s.mem := rfl
@[simp] theorem State.retireTo_out (s : State) (p : Byte) (n : Nat) : (s.retireTo p n).out = s.out := rfl
@[simp] theorem State.retireTo_status (s : State) (p : Byte) (n : Nat) : (s.retireTo p n).status = s.status := rfl
@[simp] theorem State.retireTo_engine (s : State) (p : Byte) (n : Nat) : (s.retireTo p n).engine = s.engine := rfl
@[simp] theorem State.retireTo_cycleSample (s : State) (p : Byte) (n : Nat) : (s.retireTo p n).cycleSample = s.cycleSample := rfl
@[simp] theorem State.retireTo_cancelIn (s : State) (p : Byte) (n : Nat) : (s.retireTo p n).cancelIn = s.cancelIn := rfl

@[simp] theorem State.endTransfer_a (s : State) : s.endTransfer.a = s.a := rfl
@[simp] theorem State.endTransfer_b (s : State) : s.endTransfer.b = s.b := rfl
@[simp] theorem State.endTransfer_c (s : State) : s.endTransfer.c = s.c := rfl
@[simp] theorem State.endTransfer_pc (s : State) : s.endTransfer.pc = s.pc := rfl
@[simp] theorem State.endTransfer_cycle (s : State) : s.endTransfer.cycle = s.cycle := rfl
@[simp] theorem State.endTransfer_mem (s : State) : s.endTransfer.mem = s.mem := rfl
@[simp] theorem State.endTransfer_out (s : State) : s.endTransfer.out = s.out := rfl
@[simp] theorem State.endTransfer_status (s : State) : s.endTransfer.status = s.status := rfl
@[simp] theorem State.endTransfer_engine (s : State) : s.endTransfer.engine = s.engine.map Engine.idle := rfl
@[simp] theorem State.endTransfer_cycleSample (s : State) : s.endTransfer.cycleSample = s.cycleSample := rfl
@[simp] theorem State.endTransfer_cancelIn (s : State) : s.endTransfer.cancelIn = s.cancelIn := rfl

@[simp] theorem State.pastBoundary_a (s : State) : s.pastBoundary.a = s.a := rfl
@[simp] theorem State.pastBoundary_b (s : State) : s.pastBoundary.b = s.b := rfl
@[simp] theorem State.pastBoundary_c (s : State) : s.pastBoundary.c = s.c := rfl
@[simp] theorem State.pastBoundary_pc (s : State) : s.pastBoundary.pc = s.pc := rfl
@[simp] theorem State.pastBoundary_cycle (s : State) : s.pastBoundary.cycle = s.cycle := rfl
@[simp] theorem State.pastBoundary_mem (s : State) : s.pastBoundary.mem = s.mem := rfl
@[simp] theorem State.pastBoundary_out (s : State) : s.pastBoundary.out = s.out := rfl
@[simp] theorem State.pastBoundary_status (s : State) : s.pastBoundary.status = s.status := rfl
@[simp] theorem State.pastBoundary_engine (s : State) : s.pastBoundary.engine = s.engine := rfl
@[simp] theorem State.pastBoundary_cycleSample (s : State) : s.pastBoundary.cycleSample = s.cycleSample := rfl
@[simp] theorem State.pastBoundary_cancelIn (s : State) : s.pastBoundary.cancelIn = s.cancelIn.tail := rfl

@[simp] theorem State.swapA_b_eq (s : State) : s.swapA .b = { s with a := s.b, b := s.a } := rfl
@[simp] theorem State.swapA_c_eq (s : State) : s.swapA .c = { s with a := s.c, c := s.a } := rfl

@[simp] theorem State.reg_storeByte (s : State) (x : Nat) (v : Byte) (r : Reg) : (s.storeByte x v).reg r = s.reg r := by
  cases r <;> rfl
@[simp] theorem State.reg_emit (s : State) (v : Byte) (r : Reg) : (s.emit v).reg r = s.reg r := by cases r <;> rfl
@[simp] theorem State.reg_setEngine (s : State) (e : Engine) (r : Reg) : (s.setEngine e).reg r = s.reg r := by
  cases r <;> rfl

@[simp] theorem State.setStatus_isFaulted (s : State) (f : Fault) : (s.setStatus (.faulted f)).isFaulted = true := rfl

@[simp] theorem Engine.accept_inProgress (e : Engine) (n : Nat) : (e.accept n).inProgress = e.inProgress := rfl
@[simp] theorem Engine.accept_index (e : Engine) (n : Nat) : (e.accept n).index = e.index - 1 := rfl
@[simp] theorem Engine.accept_refCycle (e : Engine) (n : Nat) : (e.accept n).refCycle = n := rfl
@[simp] theorem Engine.accept_dst (e : Engine) (n : Nat) : (e.accept n).dst = e.dst := rfl
@[simp] theorem Engine.accept_src (e : Engine) (n : Nat) : (e.accept n).src = e.src := rfl
@[simp] theorem Engine.accept_magic (e : Engine) (n : Nat) : (e.accept n).magic = e.magic := rfl
@[simp] theorem Engine.accept_payload (e : Engine) (n : Nat) : (e.accept n).payload = e.payload := rfl
@[simp] theorem Engine.accept_copyBytes (e : Engine) (n : Nat) : (e.accept n).copyBytes = e.copyBytes := rfl

/-- The copy writes 32 bytes (R230). -/
@[simp] theorem Engine.copyBytes_length (e : Engine) : e.copyBytes.length = 32 := by
  unfold Engine.copyBytes
  split <;> simp [Config.copyLen]

/-- Reset meets the canonical form of memory. -/
theorem State.reset_mem_wf : State.reset.mem.wf := by
  constructor <;> simp [State.reset]

end Sys2Proof.Machine
end

