-- ==== Sys2Proof/Laws/Devices.lean ====
section
/-! SUPPORT. What `memRead` and `memWrite` answer at every address, what the copy does for every DST, and the frame of a write. -/

namespace Sys2Proof.Machine

/-! ### The read path -/

theorem memRead_storage {s : State} {x : Byte} (h : x.toNat < 0xF0) : memRead s x = .ok (s.mem.read x.toNat) :=
  if_pos (inStorage_iff.mpr h)

theorem memRead_device {s : State} {x : Byte} (h : 0xF0 ≤ x.toNat) : memRead s x = .error .illegalAddress :=
  if_neg (by rw [inStorage_iff]; omega)

theorem memRead_ok {s : State} {x v : Byte} (h : memRead s x = .ok v) : x.toNat < 0xF0 ∧ v = s.mem.read x.toNat := by
  rw [memRead] at h
  split at h
  · exact ⟨inStorage_iff.mp ‹_›, by simpa using h.symm⟩
  · cases h

theorem memRead_error {s : State} {x : Byte} {f : Fault} (h : memRead s x = .error f) :
    0xF0 ≤ x.toNat ∧ f = .illegalAddress := by
  rw [memRead] at h
  split at h
  · cases h
  · rename_i hx
    exact ⟨by rw [inStorage_iff] at hx; omega, by simpa using h.symm⟩

/-! ### The write path, region by region (R45) -/

section Regions
variable {copy : State → WriteResult} {now : Nat} {x v : Byte} {s : State} {e : Engine}

theorem memWriteWith_rom (h : x.toNat < 0x80) : memWriteWith copy now x v s = .raised .protectedWrite s :=
  if_pos (inRom_iff.mpr h)

theorem memWriteWith_ram (h : 0x80 ≤ x.toNat) (h' : x.toNat < 0xF0) :
    memWriteWith copy now x v s = .done (s.storeByte x.toNat v) := by
  rw [memWriteWith, if_neg (by rw [inRom_iff]; omega), if_pos (inRam_iff.mpr ⟨h, h'⟩)]

theorem memWriteWith_output : memWriteWith copy now 0xF1 v s = .done (s.emit v) := rfl

theorem memWriteWith_base (he : s.engine = none) (h : 0xF0 ≤ x.toNat) (h1 : x ≠ 0xF1) :
    memWriteWith copy now x v s = .raised .illegalAddress s := by
  rw [memWriteWith, if_neg (by rw [inRom_iff]; omega), if_neg (by rw [inRam_iff]; omega),
    if_neg (show ¬ x = params.addrOutput from h1), he]

theorem memWriteWith_unmapped (h : x = 0xF0 ∨ 0xF6 ≤ x.toNat) :
    memWriteWith copy now x v s = .raised .illegalAddress s := by
  have hb : ∀ a : Byte, a.toNat < 0xF6 → 0xF0 < a.toNat → x ≠ a := by
    rintro a h1 h2 rfl
    rcases h with rfl | h
    · simp at h2
    · omega
  have h0 : 0xF0 ≤ x.toNat := by
    rcases h with rfl | h
    · simp
    · omega
  rw [memWriteWith, if_neg (by rw [inRom_iff]; omega), if_neg (by rw [inRam_iff]; omega),
    if_neg (hb params.addrOutput (by decide) (by decide))]
  cases s.engine with
  | none => rfl
  | some e =>
    simp only [if_neg (hb params.addrDst (by decide) (by decide)), if_neg (hb params.addrSrc (by decide) (by decide)),
      if_neg (hb params.addrGo (by decide) (by decide)), if_neg (hb params.addrPoke (by decide) (by decide))]

theorem memWriteWith_dst (he : s.engine = some e) : memWriteWith copy now 0xF2 v s = engineWriteDst e v s := by
  simp [memWriteWith, InRom, InRam, he]

theorem memWriteWith_src (he : s.engine = some e) : memWriteWith copy now 0xF3 v s = engineWriteSrc e v s := by
  simp [memWriteWith, InRom, InRam, he]

theorem memWriteWith_go (he : s.engine = some e) : memWriteWith copy now 0xF4 v s = engineWriteGo now e s := by
  simp [memWriteWith, InRom, InRam, he]

theorem memWriteWith_poke (he : s.engine = some e) :
    memWriteWith copy now 0xF5 v s = engineWritePoke copy now e v s := by
  simp [memWriteWith, InRom, InRam, he]

end Regions

/-- Every address falls in exactly one of these rows (R40). -/
theorem region_cases (x : Byte) :
    x.toNat < 0x80 ∨ (0x80 ≤ x.toNat ∧ x.toNat < 0xF0) ∨ x = 0xF1 ∨ x = 0xF2 ∨ x = 0xF3 ∨ x = 0xF4 ∨ x = 0xF5 ∨
      (x = 0xF0 ∨ 0xF6 ≤ x.toNat) := by
  by_cases h1 : x.toNat < 0xF0
  · omega
  · by_cases h2 : 0xF6 ≤ x.toNat
    · simp [h2]
    · have : x.toNat = 0xF0 ∨ x.toNat = 0xF1 ∨ x.toNat = 0xF2 ∨ x.toNat = 0xF3 ∨ x.toNat = 0xF4 ∨ x.toNat = 0xF5 := by omega
      have hx : ∀ n : Nat, x.toNat = n → x = BitVec.ofNat 8 n := fun n hn => by rw [← hn]; simp
      rcases this with h | h | h | h | h | h <;> simp [hx _ h]

/-! ### The POKE register (R220 to R226) -/

/-- A poke of `v` at the cycle value `now` is accepted: Armed, the expected index, and for every poke but the first exactly
36 cycles after the one before (R221 to R224). -/
def Engine.Accepts (e : Engine) (now : Nat) (v : Byte) : Prop :=
  e.inProgress = true ∧ v = e.index ∧ (e.index ≠ 5 → now = e.refCycle + 36)

section Poke
variable {copy : State → WriteResult} {now : Nat} {v : Byte} {s : State} {e : Engine}

theorem engineWritePoke_accepted (h : e.Accepts now v) :
    engineWritePoke copy now e v s =
      if e.index = 1 then completeTransfer copy (s.setEngine (e.accept now)) else .done (s.setEngine (e.accept now)) := by
  obtain ⟨h1, h2, h3⟩ := h
  have hi : ((e.accept now).index = 0) = (e.index = 1) := by
    rw [Engine.accept_index, BitVec.sub_eq_iff_eq_add]
    rfl
  rw [engineWritePoke, if_neg (by simp [h1]), if_neg (by simp [h2]), if_neg, if_neg]
  · simp only [hi]
  all_goals
    rintro ⟨h4, h5⟩
    have := h3 h4
    simp only at h5
    omega

/-- How a poke that is not accepted ends: one of the four faults, nothing changed. -/
theorem engineWritePoke_rejected (h : ¬ e.Accepts now v) :
    ∃ f, engineWritePoke copy now e v s = .raised f s ∧
      ((f = .engineNotArmed ∧ e.inProgress = false) ∨
       (e.inProgress = true ∧ f = .engineIndexMismatch ∧ v ≠ e.index) ∨
       (e.inProgress = true ∧ v = e.index ∧ e.index ≠ 5 ∧ f = .engineTimingEarly ∧ now < e.refCycle + 36) ∨
       (e.inProgress = true ∧ v = e.index ∧ e.index ≠ 5 ∧ f = .engineTimingLate ∧ e.refCycle + 36 < now)) := by
  unfold engineWritePoke
  split
  · rename_i hp
    exact ⟨_, rfl, .inl ⟨rfl, by simpa using hp⟩⟩
  · rename_i hp
    have hp : e.inProgress = true := by simpa using hp
    split
    · rename_i hv
      exact ⟨_, rfl, .inr (.inl ⟨hp, rfl, hv⟩)⟩
    · rename_i hv
      have hv : v = e.index := by simpa using hv
      split
      · rename_i ht
        exact ⟨_, rfl, .inr (.inr (.inl ⟨hp, hv, ht.1, rfl, ht.2⟩))⟩
      · split
        · rename_i ht
          exact ⟨_, rfl, .inr (.inr (.inr ⟨hp, hv, ht.1, rfl, ht.2⟩))⟩
        · rename_i h1 h2
          refine absurd ⟨hp, hv, fun h5 => ?_⟩ h
          simp only [not_and, not_lt] at h1 h2
          have := h1 h5
          have := h2 h5
          omega

end Poke

/-! ### The copy (R230 to R232) -/

/-- The state during a copy: Armed, index 0, the recorded cycle is the present one (R226). -/
def Copying (now : Nat) (s : State) : Prop :=
  ∃ e, s.engine = some e ∧ e.inProgress = true ∧ e.index = 0 ∧ e.refCycle = now

theorem Copying.not_accepts {now : Nat} {e : Engine} {v : Byte} (h0 : e.index = 0) (hr : e.refCycle = now) :
    ¬ e.Accepts now v := by
  rintro ⟨-, -, h⟩
  have := h (by simp [h0])
  omega

/-- During a copy the write path never starts another: whatever copy stands in it, the answer is the same. -/
theorem memWriteWith_copy_irrelevant {c d : State → WriteResult} {now : Nat} {x v : Byte} {s : State} (h : Copying now s) :
    memWriteWith c now x v s = memWriteWith d now x v s := by
  obtain ⟨e, he, hp, h0, hr⟩ := h
  rcases region_cases x with h | ⟨h, h'⟩ | rfl | rfl | rfl | rfl | rfl | h
  · rw [memWriteWith_rom h, memWriteWith_rom h]
  · rw [memWriteWith_ram h h', memWriteWith_ram h h']
  · rfl
  · rw [memWriteWith_dst he, memWriteWith_dst he]
  · rw [memWriteWith_src he, memWriteWith_src he]
  · rw [memWriteWith_go he, memWriteWith_go he]
  · rw [memWriteWith_poke he, memWriteWith_poke he]
    unfold engineWritePoke
    have hs : ¬ e.index = 5#8 := by simp [h0]
    have hlt : now < e.refCycle + 36 := by omega
    simp [hs, hlt]
  · rw [memWriteWith_unmapped h, memWriteWith_unmapped h]

/-- A write of the copy that is done was to RAM or to OUTPUT, and the engine is as it was. -/
theorem copyWrite_done {now : Nat} {x v : Byte} {s s' : State} (hc : Copying now s) (h : copyWrite now x v s = .done s') :
    (0x80 ≤ x.toNat ∧ x.toNat < 0xF0 ∧ s' = s.storeByte x.toNat v) ∨ (x = 0xF1 ∧ s' = s.emit v) := by
  obtain ⟨e, he, hp, h0, hr⟩ := hc
  unfold copyWrite at h
  rcases region_cases x with hx | ⟨hx, hx'⟩ | rfl | rfl | rfl | rfl | rfl | hx
  · rw [memWriteWith_rom hx] at h; cases h
  · rw [memWriteWith_ram hx hx'] at h; cases h; exact .inl ⟨hx, hx', rfl⟩
  · rw [memWriteWith_output] at h; cases h; exact .inr ⟨rfl, rfl⟩
  · rw [memWriteWith_dst he] at h; simp [engineWriteDst, hp] at h
  · rw [memWriteWith_src he] at h; simp [engineWriteSrc, hp] at h
  · rw [memWriteWith_go he] at h; simp [engineWriteGo, hp] at h
  · rw [memWriteWith_poke he] at h
    obtain ⟨f, hf, -⟩ := engineWritePoke_rejected (copy := WriteResult.done) (s := s)
      (Copying.not_accepts (v := v) h0 hr)
    rw [hf] at h; cases h
  · rw [memWriteWith_unmapped hx] at h; cases h

/-- A write of the copy that faults changes nothing. -/
theorem copyWrite_raised {now : Nat} {x v : Byte} {s s' : State} {f : Fault} (hc : Copying now s)
    (h : copyWrite now x v s = .raised f s') : s' = s := by
  obtain ⟨e, he, hp, h0, hr⟩ := hc
  unfold copyWrite at h
  rcases region_cases x with hx | ⟨hx, hx'⟩ | rfl | rfl | rfl | rfl | rfl | hx
  · rw [memWriteWith_rom hx] at h; cases h; rfl
  · rw [memWriteWith_ram hx hx'] at h; cases h
  · rw [memWriteWith_output] at h; cases h
  · rw [memWriteWith_dst he] at h; simp [engineWriteDst, hp] at h; exact h.2.symm
  · rw [memWriteWith_src he] at h; simp [engineWriteSrc, hp] at h; exact h.2.symm
  · rw [memWriteWith_go he] at h; simp [engineWriteGo, hp] at h; exact h.2.symm
  · rw [memWriteWith_poke he] at h
    obtain ⟨g, hg, -⟩ := engineWritePoke_rejected (copy := WriteResult.done) (s := s)
      (Copying.not_accepts (v := v) h0 hr)
    rw [hg] at h; cases h; rfl
  · rw [memWriteWith_unmapped hx] at h; cases h; rfl

theorem copyLoop_cons_done {w : Byte → Byte → State → WriteResult} {x b : Byte} {bs : List Byte} {s s' : State}
    (h : w x b s = .done s') : copyLoop w x (b :: bs) s = copyLoop w (x + 1) bs s' := by
  rw [copyLoop, h]

theorem copyLoop_cons_raised {w : Byte → Byte → State → WriteResult} {x b : Byte} {bs : List Byte} {s s' : State} {f : Fault}
    (h : w x b s = .raised f s') : copyLoop w x (b :: bs) s = .raised f s' := by
  rw [copyLoop, h]

/-- As long as it stays in RAM the copy loads its bytes; then it goes on with the rest. -/
theorem copyLoop_ram {now : Nat} {x : Byte} {bs cs : List Byte} {s : State} (h : 0x80 ≤ x.toNat)
    (h' : x.toNat + bs.length ≤ 0xF0) :
    copyLoop (copyWrite now) x (bs ++ cs) s =
      copyLoop (copyWrite now) (x + BitVec.ofNat 8 bs.length) cs { s with mem := s.mem.load x.toNat bs } := by
  induction bs generalizing x s with
  | nil => simp [Memory.load]
  | cons b bs ih =>
    rw [List.length_cons] at h'
    have hx : (x + 1).toNat = x.toNat + 1 := by
      rw [BitVec.toNat_add]
      simp
      omega
    have hd : copyWrite now x b s = .done (s.storeByte x.toNat b) := memWriteWith_ram h (by omega)
    have hn : x + 1 + BitVec.ofNat 8 bs.length = x + BitVec.ofNat 8 (bs.length + 1) := by
      apply BitVec.eq_of_toNat_eq
      simp [BitVec.toNat_add]
      omega
    rw [List.cons_append, copyLoop_cons_done hd, ih (by omega) (by omega), hx, hn, List.length_cons]
    rfl

/-- A whole copy inside RAM (R232, row 0x80 to 0xD0). -/
theorem copyLoop_all_ram {now : Nat} {x : Byte} {bs : List Byte} {s : State} (h : 0x80 ≤ x.toNat)
    (h' : x.toNat + bs.length ≤ 0xF0) :
    copyLoop (copyWrite now) x bs s = .done { s with mem := s.mem.load x.toNat bs } := by
  have := copyLoop_ram (now := now) (cs := []) (s := s) h h'
  rwa [List.append_nil, copyLoop] at this

/-- A copy that runs over the end of RAM: the bytes up to 0xEF are written, then IllegalAddress (R232, row 0xD1 to 0xEF). -/
theorem copyLoop_over_end {now : Nat} {x : Byte} {bs : List Byte} {s : State} (h : 0x80 ≤ x.toNat) (h0 : x.toNat ≤ 0xF0)
    (h' : 0xF0 < x.toNat + bs.length) :
    copyLoop (copyWrite now) x bs s =
      .raised .illegalAddress { s with mem := s.mem.load x.toNat (bs.take (0xF0 - x.toNat)) } := by
  have hl : (bs.take (0xF0 - x.toNat)).length = 0xF0 - x.toNat := by rw [List.length_take]; omega
  have hd : bs.drop (0xF0 - x.toNat) ≠ [] := by
    rw [ne_eq, List.drop_eq_nil_iff]
    omega
  obtain ⟨b, cs, hcs⟩ := List.exists_cons_of_ne_nil hd
  conv_lhs => rw [← List.take_append_drop (0xF0 - x.toNat) bs]
  rw [copyLoop_ram h (by omega), hl, hcs]
  have hx : x + BitVec.ofNat 8 (0xF0 - x.toNat) = 0xF0 := by
    apply BitVec.eq_of_toNat_eq
    rw [BitVec.toNat_add]
    simp
    omega
  rw [hx]
  exact copyLoop_cons_raised (memWriteWith_unmapped (.inl rfl))

/-- The copy's writes are the full `MemWrite`: R230's loop over the one write path (R45) gives the same. -/
theorem copyLoop_full_memWrite {now : Nat} {x : Byte} {bs : List Byte} {s : State} (h : Copying now s) :
    copyLoop (memWrite now) x bs s = copyLoop (copyWrite now) x bs s := by
  induction bs generalizing x s with
  | nil => rfl
  | cons b bs ih =>
    have hw : memWrite now x b s = copyWrite now x b s := memWriteWith_copy_irrelevant h
    rw [copyLoop, copyLoop, hw]
    cases hr : copyWrite now x b s with
    | raised f s' => rfl
    | done s' =>
      refine ih ?_
      rcases copyWrite_done h hr with ⟨-, -, rfl⟩ | ⟨-, rfl⟩ <;> exact h

/-- The engine after a copy, done or not, is the engine before it. -/
theorem copyLoop_engine {now : Nat} {x : Byte} {bs : List Byte} {s : State} (h : Copying now s) :
    (∀ s', copyLoop (copyWrite now) x bs s = .done s' → s'.engine = s.engine) ∧
    (∀ f s', copyLoop (copyWrite now) x bs s = .raised f s' → s'.engine = s.engine) := by
  induction bs generalizing x s with
  | nil => simp [copyLoop]
  | cons b bs ih =>
    cases hr : copyWrite now x b s with
    | raised g t =>
      rw [copyLoop_cons_raised hr, copyWrite_raised h hr]
      simp
    | done t =>
      rw [copyLoop_cons_done hr]
      rcases copyWrite_done h hr with ⟨-, -, rfl⟩ | ⟨-, rfl⟩
      · exact ih h
      · exact ih h

/-! ### The frame of a write -/

/-- The state a write leaves, done or raised. -/
def WriteResult.state : WriteResult → State
  | .done s => s
  | .raised _ s => s

/-- What no write changes, and how far the rest can change. -/
structure WriteFrame (s t : State) : Prop where
  a : t.a = s.a
  b : t.b = s.b
  c : t.c = s.c
  pc : t.pc = s.pc
  cycle : t.cycle = s.cycle
  status : t.status = s.status
  cycleSample : t.cycleSample = s.cycleSample
  cancelIn : t.cancelIn = s.cancelIn
  rom : ∀ y < 0x80, t.mem.read y = s.mem.read y
  wf : s.mem.wf → t.mem.wf
  out : s.out <+: t.out
  engine : t.engine.map (fun e => (e.magic, e.payload)) = s.engine.map (fun e => (e.magic, e.payload))

theorem WriteFrame.refl (s : State) : WriteFrame s s :=
  ⟨rfl, rfl, rfl, rfl, rfl, rfl, rfl, rfl, fun _ _ => rfl, id, List.prefix_refl _, rfl⟩

theorem WriteFrame.trans {s t u : State} (h : WriteFrame s t) (k : WriteFrame t u) : WriteFrame s u :=
  ⟨k.a.trans h.a, k.b.trans h.b, k.c.trans h.c, k.pc.trans h.pc, k.cycle.trans h.cycle, k.status.trans h.status,
    k.cycleSample.trans h.cycleSample, k.cancelIn.trans h.cancelIn, fun y hy => (k.rom y hy).trans (h.rom y hy),
    fun w => k.wf (h.wf w), h.out.trans k.out, k.engine.trans h.engine⟩

theorem WriteFrame.storeByte {s : State} {x : Nat} {v : Byte} (h : 0x80 ≤ x) (h' : x < 0xF0) :
    WriteFrame s (s.storeByte x v) where
  a := rfl
  b := rfl
  c := rfl
  pc := rfl
  cycle := rfl
  status := rfl
  cycleSample := rfl
  cancelIn := rfl
  rom := fun y hy => Memory.read_write_ne (by omega)
  wf := Memory.write_wf h'
  out := List.prefix_refl _
  engine := rfl

theorem WriteFrame.emit {s : State} {v : Byte} : WriteFrame s (s.emit v) :=
  ⟨rfl, rfl, rfl, rfl, rfl, rfl, rfl, rfl, fun _ _ => rfl, id, List.prefix_append _ _, rfl⟩

theorem WriteFrame.setEngine {s : State} {e d : Engine} (he : s.engine = some e) (hm : d.magic = e.magic)
    (hp : d.payload = e.payload) : WriteFrame s (s.setEngine d) :=
  ⟨rfl, rfl, rfl, rfl, rfl, rfl, rfl, rfl, fun _ _ => rfl, id, List.prefix_refl _, by simp [he, hm, hp]⟩

theorem WriteFrame.endTransfer {s : State} : WriteFrame s s.endTransfer :=
  ⟨rfl, rfl, rfl, rfl, rfl, rfl, rfl, rfl, fun _ _ => rfl, id, List.prefix_refl _, by cases h : s.engine <;> simp [h, Engine.idle]⟩

/-- The write path keeps the frame if the copy in it does. -/
theorem memWriteWith_frame {copy : State → WriteResult} {now : Nat} {x v : Byte} {s : State}
    (hc : ∀ t, WriteFrame t (copy t).state) : WriteFrame s (memWriteWith copy now x v s).state := by
  rcases region_cases x with h | ⟨h, h'⟩ | rfl | hx
  · rw [memWriteWith_rom h]; exact .refl s
  · rw [memWriteWith_ram h h']; exact .storeByte h h'
  · exact .emit
  · cases he : s.engine with
    | none =>
      rw [memWriteWith_base he]
      · exact .refl s
      · rcases hx with rfl | rfl | rfl | rfl | rfl | hx <;> first | decide | omega
      · rcases hx with rfl | rfl | rfl | rfl | rfl | hx <;> first | decide | (rintro rfl; simp at hx)
    | some e =>
      rcases hx with rfl | rfl | rfl | rfl | hx
      · rw [memWriteWith_dst he, engineWriteDst]
        split
        · exact .refl s
        · exact .setEngine he rfl rfl
      · rw [memWriteWith_src he, engineWriteSrc]
        split
        · exact .refl s
        · exact .setEngine he rfl rfl
      · rw [memWriteWith_go he, engineWriteGo]
        split
        · exact .refl s
        · exact .setEngine he rfl rfl
      · rw [memWriteWith_poke he]
        by_cases ha : e.Accepts now v
        · rw [engineWritePoke_accepted ha]
          have h1 : WriteFrame s (s.setEngine (e.accept now)) := .setEngine he rfl rfl
          split
          · have h2 := h1.trans (hc _)
            unfold completeTransfer
            cases hr : copy (s.setEngine (e.accept now)) with
            | done t => rw [hr] at h2; exact h2.trans .endTransfer
            | raised f t => rw [hr] at h2; exact h2
          · exact h1
        · obtain ⟨f, hf, -⟩ := engineWritePoke_rejected (copy := copy) (s := s) ha
          rw [hf]; exact .refl s
      · rw [memWriteWith_unmapped hx]; exact .refl s

theorem copyLoop_frame {w : Byte → Byte → State → WriteResult} (hw : ∀ x v s, WriteFrame s (w x v s).state)
    {x : Byte} {bs : List Byte} {s : State} : WriteFrame s (copyLoop w x bs s).state := by
  induction bs generalizing x s with
  | nil => exact .refl s
  | cons b bs ih =>
    have h := hw x b s
    cases hr : w x b s with
    | done t => rw [copyLoop_cons_done hr]; rw [hr] at h; exact h.trans ih
    | raised f t => rw [copyLoop_cons_raised hr]; rw [hr] at h; exact h

theorem engineCopy_frame {now : Nat} {s : State} : WriteFrame s (engineCopy now s).state := by
  unfold engineCopy
  cases s.engine with
  | none => exact .refl s
  | some e => exact copyLoop_frame fun x v t => memWriteWith_frame (copy := WriteResult.done) fun u => .refl u

/-- THE FRAME OF `MemWrite`: registers, pc, cycle, status, the switches and the secrets are as before; ROM reads as before; the
memory keeps its form; `out` only grows. -/
theorem memWrite_frame {now : Nat} {x v : Byte} {s : State} : WriteFrame s (memWrite now x v s).state :=
  memWriteWith_frame fun _ => engineCopy_frame

/-! ### The engine's fields after a write -/

theorem completeTransfer_done {copy : State → WriteResult} {s t : State} (h : completeTransfer copy s = .done t) :
    ∃ u, copy s = .done u ∧ t = u.endTransfer := by
  unfold completeTransfer at h
  split at h
  · cases h; exact ⟨_, ‹_›, rfl⟩
  · cases h

theorem completeTransfer_raised {copy : State → WriteResult} {s t : State} {f : Fault}
    (h : completeTransfer copy s = .raised f t) : copy s = .raised f t := by
  unfold completeTransfer at h
  split at h
  · cases h
  · cases h; assumption

/-- The copy leaves the engine as the accepted poke set it, done or not. -/
theorem engineCopy_engine {now : Nat} {s : State} (h : Copying now s) :
    (∀ t, engineCopy now s = .done t → t.engine = s.engine) ∧
    (∀ f t, engineCopy now s = .raised f t → t.engine = s.engine) := by
  obtain ⟨e, he, h3⟩ := h
  unfold engineCopy
  rw [he]
  simpa only [he] using copyLoop_engine (x := e.dst) (bs := e.copyBytes) ⟨e, he, h3⟩

theorem Copying.of_accept {now : Nat} {s : State} {e : Engine} (hp : e.inProgress = true) (h1 : e.index = 1) :
    Copying now (s.setEngine (e.accept now)) :=
  ⟨e.accept now, rfl, hp, by simp [h1], rfl⟩

/-- The engine after a write is the engine before it, or the engine one of the four device actions makes of it. -/
theorem memWrite_engine {now : Nat} {x v : Byte} {s : State} {e e' : Engine} (he : s.engine = some e)
    (h : (memWrite now x v s).state.engine = some e') :
    e' = e ∨
    (e.inProgress = false ∧ x = 0xF2 ∧ e' = { e with dst := v }) ∨
    (e.inProgress = false ∧ x = 0xF3 ∧ e' = { e with src := v }) ∨
    (e.inProgress = false ∧ x = 0xF4 ∧ e' = { e with inProgress := true, index := 5, refCycle := now }) ∨
    (x = 0xF5 ∧ e.Accepts now v ∧
      (e' = e.accept now ∧ (e.index = 1 → ∃ f t, memWrite now x v s = .raised f t) ∨
       (e.index = 1 ∧ e' = (e.accept now).idle ∧ ∃ t, memWrite now x v s = .done t))) := by
  have keep : ∀ t : State, t.engine = s.engine → t.engine = some e' → e' = e := by
    intro t h1 h2
    rw [h1, he] at h2
    exact (Option.some.inj h2).symm
  unfold memWrite at h ⊢
  rcases region_cases x with hx | ⟨hx, hx'⟩ | rfl | rfl | rfl | rfl | rfl | hx
  · rw [memWriteWith_rom hx] at h; exact .inl (keep _ rfl h)
  · rw [memWriteWith_ram hx hx'] at h; exact .inl (keep _ rfl h)
  · exact .inl (keep _ rfl h)
  · rw [memWriteWith_dst he, engineWriteDst] at h
    split at h
    · exact .inl (keep _ rfl h)
    · exact .inr (.inl ⟨by simp_all, rfl, (Option.some.inj h).symm⟩)
  · rw [memWriteWith_src he, engineWriteSrc] at h
    split at h
    · exact .inl (keep _ rfl h)
    · exact .inr (.inr (.inl ⟨by simp_all, rfl, (Option.some.inj h).symm⟩))
  · rw [memWriteWith_go he, engineWriteGo] at h
    split at h
    · exact .inl (keep _ rfl h)
    · exact .inr (.inr (.inr (.inl ⟨by simp_all, rfl, (Option.some.inj h).symm⟩)))
  · rw [memWriteWith_poke he] at h ⊢
    by_cases ha : e.Accepts now v
    · refine .inr (.inr (.inr (.inr ⟨rfl, ha, ?_⟩)))
      rw [engineWritePoke_accepted ha] at h ⊢
      split at h
      · rename_i h1
        have hc := engineCopy_engine (Copying.of_accept (now := now) (s := s) ha.1 h1)
        rw [if_pos h1]
        cases hr : completeTransfer (engineCopy now) (s.setEngine (e.accept now)) with
        | done t =>
          obtain ⟨u, hu, rfl⟩ := completeTransfer_done hr
          rw [hr] at h
          refine .inr ⟨h1, ?_, _, rfl⟩
          have h2 : u.engine.map Engine.idle = some e' := h
          rw [hc.1 u hu] at h2
          exact (Option.some.inj h2).symm
        | raised f t =>
          rw [hr] at h
          refine .inl ⟨?_, fun _ => ⟨f, t, rfl⟩⟩
          have h2 : t.engine = some e' := h
          rw [hc.2 f t (completeTransfer_raised hr)] at h2
          exact (Option.some.inj h2).symm
      · exact .inl ⟨(Option.some.inj h).symm, fun h1 => absurd h1 ‹_›⟩
    · obtain ⟨f, hf, -⟩ := engineWritePoke_rejected (copy := engineCopy now) (s := s) ha
      rw [hf] at h
      exact .inl (keep _ rfl h)
  · rw [memWriteWith_unmapped hx] at h; exact .inl (keep _ rfl h)

/-- The base variant stays the base variant. -/
theorem memWrite_engine_none {now : Nat} {x v : Byte} {s : State} (he : s.engine = none) :
    (memWrite now x v s).state.engine = none := by
  simpa [he] using (memWrite_frame (now := now) (x := x) (v := v) (s := s)).engine

/-- A write that faults changed nothing, or it was the accepted poke of 1 and the copy faulted over the engine it set. -/
theorem memWrite_raised {now : Nat} {x v : Byte} {s t : State} {f : Fault} (h : memWrite now x v s = .raised f t) :
    t = s ∨ ∃ e, s.engine = some e ∧ e.Accepts now v ∧ e.index = 1 ∧ t.engine = some (e.accept now) := by
  unfold memWrite at h
  rcases region_cases x with hx | ⟨hx, hx'⟩ | rfl | hx
  · rw [memWriteWith_rom hx] at h; cases h; exact .inl rfl
  · rw [memWriteWith_ram hx hx'] at h; cases h
  · rw [memWriteWith_output] at h; cases h
  · cases he : s.engine with
    | none =>
      rw [memWriteWith_base he] at h
      · cases h; exact .inl rfl
      · rcases hx with rfl | rfl | rfl | rfl | rfl | hx <;> first | decide | omega
      · rcases hx with rfl | rfl | rfl | rfl | rfl | hx <;> first | decide | (rintro rfl; simp at hx)
    | some e =>
      rcases hx with rfl | rfl | rfl | rfl | hx
      · rw [memWriteWith_dst he, engineWriteDst] at h
        split at h <;> cases h
        exact .inl rfl
      · rw [memWriteWith_src he, engineWriteSrc] at h
        split at h <;> cases h
        exact .inl rfl
      · rw [memWriteWith_go he, engineWriteGo] at h
        split at h <;> cases h
        exact .inl rfl
      · rw [memWriteWith_poke he] at h
        by_cases ha : e.Accepts now v
        · rw [engineWritePoke_accepted ha] at h
          split at h
          · rename_i h1
            have hc := engineCopy_engine (Copying.of_accept (now := now) (s := s) ha.1 h1)
            exact .inr ⟨e, rfl, ha, h1, hc.2 f t (completeTransfer_raised h)⟩
          · cases h
        · obtain ⟨g, hg, -⟩ := engineWritePoke_rejected (copy := engineCopy now) (s := s) ha
          rw [hg] at h; cases h; exact .inl rfl
      · rw [memWriteWith_unmapped hx] at h; cases h; exact .inl rfl

/-- In the base variant a write faults only with IllegalAddress or ProtectedWrite. -/
theorem memWrite_base_fault {now : Nat} {x v : Byte} {s t : State} {f : Fault} (he : s.engine = none)
    (h : memWrite now x v s = .raised f t) : f = .illegalAddress ∨ f = .protectedWrite := by
  unfold memWrite at h
  rcases region_cases x with hx | ⟨hx, hx'⟩ | rfl | hx
  · rw [memWriteWith_rom hx] at h; cases h; exact .inr rfl
  · rw [memWriteWith_ram hx hx'] at h; cases h
  · rw [memWriteWith_output] at h; cases h
  · rw [memWriteWith_base he] at h
    · cases h; exact .inl rfl
    · rcases hx with rfl | rfl | rfl | rfl | rfl | hx <;> first | decide | omega
    · rcases hx with rfl | rfl | rfl | rfl | rfl | hx <;> first | decide | (rintro rfl; simp at hx)

/-- Byte `k` of what the copy writes (R230). -/
theorem Engine.copyBytes_getD (e : Engine) (k : Nat) (hk : k < 32) :
    e.copyBytes.getD k 0x00 = if e.src = e.magic then e.payload[k] else 0x00 := by
  have hl : k < e.copyBytes.length := by rw [Engine.copyBytes_length]; exact hk
  rw [List.getD_eq_getElem _ _ hl]
  unfold Engine.copyBytes
  split
  · simp
  · rw [List.getElem_replicate]

theorem Engine.accept_of_one {e : Engine} {n : Nat} (h : e.index = 1) : e.accept n = { e with index := 0, refCycle := n } := by
  unfold Engine.accept
  rw [h]
  rfl

/-- A write keeps the engine coherent (R25, R26): as of the cycle the write observed if it is done, as after a fault if not. -/
theorem memWrite_coherent {now : Nat} {x v : Byte} {s : State} {e e' : Engine} (he : s.engine = some e)
    (hc : e.Coherent false s.cycle) (hn : s.cycle ≤ now) (h : (memWrite now x v s).state.engine = some e') :
    (∀ t, memWrite now x v s = .done t → e'.Coherent false now) ∧
    (∀ f t, memWrite now x v s = .raised f t → e'.Coherent true now) := by
  obtain ⟨c1, c2, c3⟩ := hc
  obtain ⟨c3, c4⟩ := c3 rfl
  rcases memWrite_engine he h with rfl | ⟨-, -, rfl⟩ | ⟨-, -, rfl⟩ | ⟨-, -, rfl⟩ | ⟨-, ha, ⟨rfl, hr⟩ | ⟨h1, rfl, t, ht⟩⟩
  · exact ⟨fun _ _ => ⟨c1, c2, fun _ => ⟨c3, c4.trans hn⟩⟩, fun _ _ _ => ⟨c1, c2, by simp⟩⟩
  · exact ⟨fun _ _ => ⟨c1, c2, fun _ => ⟨c3, c4.trans hn⟩⟩, fun _ _ _ => ⟨c1, c2, by simp⟩⟩
  · exact ⟨fun _ _ => ⟨c1, c2, fun _ => ⟨c3, c4.trans hn⟩⟩, fun _ _ _ => ⟨c1, c2, by simp⟩⟩
  · exact ⟨fun _ _ => ⟨by simp, by simp, by simp⟩, fun _ _ _ => ⟨by simp, by simp, by simp⟩⟩
  · have hge := c3 ha.1
    have hidx : (e.accept now).index.toNat = e.index.toNat - 1 := by
      rw [Engine.accept_index, BitVec.toNat_sub]
      simp
      omega
    refine ⟨fun t ht => ⟨by omega, by simp [ha.1], fun _ => ⟨fun _ => ?_, by simp⟩⟩,
      fun f t ht => ⟨by omega, by simp [ha.1], by simp⟩⟩
    have h1 : e.index ≠ 1 := fun h1 => by
      obtain ⟨f, t', h'⟩ := hr h1
      rw [h'] at ht
      cases ht
    have : e.index.toNat ≠ 1 := fun h => h1 (BitVec.eq_of_toNat_eq h)
    omega
  · refine ⟨fun _ _ => ?_, fun f t' h' => by rw [ht] at h'; cases h'⟩
    exact ⟨by simp [Engine.idle, h1], by simp [Engine.idle, h1], fun _ => by simp [Engine.idle]⟩

end Sys2Proof.Machine
end

