-- ==== Sys2Proof/Laws/Exec.lean ====
section
/-! SUPPORT. What `exec` answers: by shape of instruction, and as one case analysis. -/

namespace Sys2Proof.Machine

/-- A load is one read, then retirement or the fault of the read (R107). -/
theorem exec_load {i : Instr} {r : Reg} {opnd x : Byte} {s : State} (h : (i, r, x) ∈ loadForms opnd s) :
    exec i s =
      match memRead s x with
      | .ok v => .next ((s.setReg r v).retireTo (s.seqPc i) i.cost)
      | .error f => .next (s.setStatus (.faulted f)) := by
  revert h
  suffices ∀ p ∈ loadForms opnd s, exec p.1 s =
      match memRead s p.2.2 with
      | .ok v => .next ((s.setReg p.2.1 v).retireTo (s.seqPc p.1) p.1.cost)
      | .error f => .next (s.setStatus (.faulted f)) from this (i, r, x)
  simp only [loadForms, List.forall_mem_cons]
  exact ⟨rfl, rfl, rfl, rfl, rfl, rfl, fun _ hp => nomatch hp⟩

/-- A store is one write, then retirement or the fault of the write (R126). -/
theorem exec_store {i : Instr} {opnd x v : Byte} {s : State} (h : (i, x, v) ∈ storeForms opnd s) :
    exec i s =
      match memWrite (s.now i.cost) x v s with
      | .done t => .next (t.retireTo (t.seqPc i) i.cost)
      | .raised f t => .next (t.setStatus (.faulted f)) := by
  revert h
  suffices ∀ p ∈ storeForms opnd s, exec p.1 s =
      match memWrite (s.now p.1.cost) p.2.1 p.2.2 s with
      | .done t => .next (t.retireTo (t.seqPc p.1) p.1.cost)
      | .raised f t => .next (t.setStatus (.faulted f)) from this (i, x, v)
  simp only [storeForms, List.forall_mem_cons]
  exact ⟨rfl, rfl, rfl, rfl, rfl, rfl, fun _ hp => nomatch hp⟩

/-- Every store has its form. -/
theorem storeForms_of_isStore {i : Instr} (h : isStore i = true) (s : State) :
    ∃ opnd x v, (i, x, v) ∈ storeForms opnd s := by
  cases i with
  | staAddr y => exact ⟨y, y, s.a, by simp [storeForms, directAddr]⟩
  | stbAddr y => exact ⟨y, y, s.b, by simp [storeForms, directAddr]⟩
  | stcAddr y => exact ⟨y, y, s.c, by simp [storeForms, directAddr]⟩
  | staInd => exact ⟨0, s.a, s.a, by simp [storeForms, indirectAddr]⟩
  | stbInd => exact ⟨0, s.a, s.b, by simp [storeForms, indirectAddr]⟩
  | stcInd => exact ⟨0, s.a, s.c, by simp [storeForms, indirectAddr]⟩
  | _ => cases h

/-- An instruction of the store forms is a store. -/
theorem isStore_of_storeForms {i : Instr} {opnd x v : Byte} {s : State} (h : (i, x, v) ∈ storeForms opnd s) :
    isStore i = true := by
  have hall : ∀ p ∈ storeForms opnd s, isStore p.1 = true := by simp [storeForms, isStore]
  exact hall _ h

/-- `now` lies between the cycle count and the cycle count once the instruction has retired (R82). -/
theorem State.now_bounds (s : State) (n : Nat) : s.cycle ≤ s.now n ∧ s.now n ≤ s.cycle + n := by
  unfold State.now
  split <;> omega

/-- A load in the shape of `exec_not_store`. -/
theorem exec_load_shape {i : Instr} {s : State} (opnd : Byte) (r : Reg) (x : Byte) (h : (i, r, x) ∈ loadForms opnd s)
    (hh : i ≠ .hcf) :
    ∃ s', exec i s = .next s' ∧
      s'.mem = s.mem ∧ s'.out = s.out ∧ s'.engine = s.engine ∧ s'.cycleSample = s.cycleSample ∧ s'.cancelIn = s.cancelIn ∧
      (s' = s.setStatus (.faulted .illegalAddress) ∨
       (s'.cycle = s.cycle + i.cost ∧ (s'.pc = s.seqPc i ∨ i.operand = some s'.pc) ∧
        s'.status = if i = .hcf then .halted else s.status)) := by
  have he := exec_load h
  rcases hr : memRead s x with f | v
  · rw [hr] at he
    obtain ⟨-, rfl⟩ := memRead_error hr
    exact ⟨_, he, rfl, rfl, rfl, rfl, rfl, .inl rfl⟩
  · rw [hr] at he
    exact ⟨_, he, by simp, by simp, by simp, by simp, by simp, .inr ⟨by simp, .inl rfl, by simp [hh]⟩⟩

/-- WHAT AN INSTRUCTION OTHER THAN A STORE DOES: it changes no memory, output, engine or input; it retires, adding its cost
and sending control to the next instruction or to its operand, or it is a load that takes IllegalAddress and changes nothing. -/
theorem exec_not_store {i : Instr} {s : State} (hi : isStore i = false) :
    ∃ s', exec i s = .next s' ∧
      s'.mem = s.mem ∧ s'.out = s.out ∧ s'.engine = s.engine ∧ s'.cycleSample = s.cycleSample ∧ s'.cancelIn = s.cancelIn ∧
      (s' = s.setStatus (.faulted .illegalAddress) ∨
       (s'.cycle = s.cycle + i.cost ∧ (s'.pc = s.seqPc i ∨ i.operand = some s'.pc) ∧
        s'.status = if i = .hcf then .halted else s.status)) := by
  have load := @exec_load_shape i s
  cases i with
  | ldaAddr y => exact load y .a y (by simp [loadForms, directAddr]) (by simp)
  | ldbAddr y => exact load y .b y (by simp [loadForms, directAddr]) (by simp)
  | ldcAddr y => exact load y .c y (by simp [loadForms, directAddr]) (by simp)
  | ldaInd => exact load 0 .a s.a (by simp [loadForms, indirectAddr]) (by simp)
  | ldbInd => exact load 0 .b s.a (by simp [loadForms, indirectAddr]) (by simp)
  | ldcInd => exact load 0 .c s.a (by simp [loadForms, indirectAddr]) (by simp)
  | staAddr _ | stbAddr _ | stcAddr _ | staInd | stbInd | stcInd => cases hi
  | nop | inc | dec | con y | swb | swc | hcf =>
    exact ⟨_, rfl, rfl, rfl, rfl, rfl, rfl, .inr ⟨rfl, .inl rfl, rfl⟩⟩
  | jp y => exact ⟨_, rfl, rfl, rfl, rfl, rfl, rfl, .inr ⟨rfl, .inr rfl, rfl⟩⟩
  | jz y =>
    show ∃ s', execJz y s = .next s' ∧ _
    unfold execJz
    split
    · exact ⟨_, rfl, rfl, rfl, rfl, rfl, rfl, .inr ⟨rfl, .inr rfl, rfl⟩⟩
    · exact ⟨_, rfl, rfl, rfl, rfl, rfl, rfl, .inr ⟨rfl, .inl rfl, rfl⟩⟩
  | jnz y =>
    show ∃ s', execJnz y s = .next s' ∧ _
    unfold execJnz
    split
    · exact ⟨_, rfl, rfl, rfl, rfl, rfl, rfl, .inr ⟨rfl, .inl rfl, rfl⟩⟩
    · exact ⟨_, rfl, rfl, rfl, rfl, rfl, rfl, .inr ⟨rfl, .inr rfl, rfl⟩⟩

/-- WHAT A STORE DOES: it retires over what its write did, or takes the write's fault over what the write had done. -/
theorem exec_isStore {i : Instr} {s : State} (hi : isStore i = true) :
    ∃ x v, (∀ t, memWrite (s.now i.cost) x v s = .done t → exec i s = .next (t.retireTo (s.seqPc i) i.cost)) ∧
      (∀ f t, memWrite (s.now i.cost) x v s = .raised f t → exec i s = .next (t.setStatus (.faulted f))) := by
  obtain ⟨opnd, x, v, h⟩ := storeForms_of_isStore hi s
  have he := exec_store h
  refine ⟨x, v, fun t ht => ?_, fun f t ht => ?_⟩
  · have hf := memWrite_frame (now := s.now i.cost) (x := x) (v := v) (s := s)
    rw [ht] at hf he
    rw [he]
    show Host.Outcome.next _ = _
    rw [State.seqPc, State.seqPc, show t.pc = s.pc from hf.pc]
  · rw [ht] at he
    exact he

/-- Every instruction answers a next state. -/
theorem exec_next (i : Instr) (s : State) : ∃ s', exec i s = .next s' := by
  cases hi : isStore i with
  | false =>
    obtain ⟨s', h, -⟩ := exec_not_store (s := s) hi
    exact ⟨s', h⟩
  | true =>
    obtain ⟨x, v, hd, hr⟩ := exec_isStore (s := s) hi
    cases h : memWrite (s.now i.cost) x v s with
    | done t => exact ⟨_, hd t h⟩
    | raised f t => exact ⟨_, hr f t h⟩

/-- The frame of any instruction: the switches, the input, the secrets and ROM are as before, the output only grows, the memory
keeps its form; and either the step faulted, with registers, pc and cycle as before, or it retired, adding its cost. -/
theorem exec_frame {i : Instr} {s s' : State} (h : exec i s = .next s') :
    s'.cycleSample = s.cycleSample ∧ s'.cancelIn = s.cancelIn ∧
    s'.engine.map (fun e => (e.magic, e.payload)) = s.engine.map (fun e => (e.magic, e.payload)) ∧
    (∀ y < 0x80, s'.mem.read y = s.mem.read y) ∧ s.out <+: s'.out ∧ (s.mem.wf → s'.mem.wf) ∧
    ((∃ f, s'.status = .faulted f ∧ s'.a = s.a ∧ s'.b = s.b ∧ s'.c = s.c ∧ s'.pc = s.pc ∧ s'.cycle = s.cycle) ∨
     (s'.cycle = s.cycle + i.cost ∧ (s'.pc = s.seqPc i ∨ i.operand = some s'.pc) ∧
      s'.status = if i = .hcf then .halted else s.status)) := by
  cases hi : isStore i with
  | false =>
    obtain ⟨t, ht, hm, ho, he, hcs, hci, hrest⟩ := exec_not_store (s := s) hi
    rw [ht] at h
    cases h
    refine ⟨hcs, hci, by rw [he], fun _ _ => by rw [hm], by rw [ho], by rw [hm]; exact id, ?_⟩
    rcases hrest with rfl | hr
    · exact .inl ⟨_, rfl, rfl, rfl, rfl, rfl, rfl⟩
    · exact .inr hr
  | true =>
    obtain ⟨x, v, hd, hr⟩ := exec_isStore (s := s) hi
    have hf := memWrite_frame (now := s.now i.cost) (x := x) (v := v) (s := s)
    cases hw : memWrite (s.now i.cost) x v s with
    | done t =>
      rw [hd t hw] at h
      cases h
      rw [hw] at hf
      have hh : i ≠ .hcf := by rintro rfl; cases hi
      exact ⟨hf.cycleSample, hf.cancelIn, hf.engine, hf.rom, hf.out, hf.wf,
        .inr ⟨congrArg (· + i.cost) hf.cycle, .inl rfl, (if_neg hh).symm ▸ hf.status⟩⟩
    | raised f t =>
      rw [hr f t hw] at h
      cases h
      rw [hw] at hf
      exact ⟨hf.cycleSample, hf.cancelIn, hf.engine, hf.rom, hf.out, hf.wf,
        .inl ⟨f, rfl, hf.a, hf.b, hf.c, hf.pc, hf.cycle⟩⟩

/-- A store of 1 to POKE that is accepted when 1 is expected: the copy, then retirement in Idle, or the copy's fault (R226). -/
theorem exec_completing_poke {s : State} {opnd : Byte} {i : Instr} {e : Engine} (h : (i, 0xF5, 1) ∈ storeForms opnd s)
    (he : s.engine = some e) (hp : e.inProgress = true) (h1 : e.index = 1) (ht : s.now i.cost = e.refCycle + 36) :
    exec i s =
      match copyLoop (copyWrite (s.now i.cost)) e.dst e.copyBytes (s.setEngine (e.accept (s.now i.cost))) with
      | .done t => .next (t.endTransfer.retireTo (t.seqPc i) i.cost)
      | .raised f t => .next (t.setStatus (.faulted f)) := by
  have ha : e.Accepts (s.now i.cost) 1 := ⟨hp, h1.symm, fun _ => ht⟩
  rw [exec_store h, memWrite, memWriteWith_poke he, engineWritePoke_accepted ha, if_pos h1]
  unfold completeTransfer engineCopy
  simp only [State.setEngine_engine]
  rw [Engine.accept_copyBytes, Engine.accept_dst]
  cases copyLoop (copyWrite (s.now i.cost)) e.dst e.copyBytes (s.setEngine (e.accept (s.now i.cost))) <;> rfl

end Sys2Proof.Machine
end

