-- ==== Sys2Proof/Laws/PerInstr.lean ====
section
/-! SUPPORT. Family `Encoding`: for each constructor, it is well-formed, its bytes decode to it and nothing is left over, and
they are as many as its size, one or two (30_encoding.md R70, R71, R77). -/

/-- What the family says of one instruction. -/
def Sys2Proof.Laws.Encoding.Statement (i : Sys2Proof.Instr) : Prop :=
  i.wf = true ∧ Sys2Proof.decode (Sys2Proof.encode i) = .ok (i, []) ∧ (Sys2Proof.encode i).length = i.size ∧
  (i.size = 1 ∨ i.size = 2)

namespace Sys2Proof.Laws.Encoding

theorem nop : Statement .nop := ⟨rfl, rfl, rfl, .inl rfl⟩
theorem ldaAddr (opnd : Byte) : Statement (.ldaAddr opnd) := ⟨rfl, rfl, rfl, .inr rfl⟩
theorem ldbAddr (opnd : Byte) : Statement (.ldbAddr opnd) := ⟨rfl, rfl, rfl, .inr rfl⟩
theorem ldcAddr (opnd : Byte) : Statement (.ldcAddr opnd) := ⟨rfl, rfl, rfl, .inr rfl⟩
theorem ldaInd : Statement .ldaInd := ⟨rfl, rfl, rfl, .inl rfl⟩
theorem ldbInd : Statement .ldbInd := ⟨rfl, rfl, rfl, .inl rfl⟩
theorem ldcInd : Statement .ldcInd := ⟨rfl, rfl, rfl, .inl rfl⟩
theorem staAddr (opnd : Byte) : Statement (.staAddr opnd) := ⟨rfl, rfl, rfl, .inr rfl⟩
theorem stbAddr (opnd : Byte) : Statement (.stbAddr opnd) := ⟨rfl, rfl, rfl, .inr rfl⟩
theorem stcAddr (opnd : Byte) : Statement (.stcAddr opnd) := ⟨rfl, rfl, rfl, .inr rfl⟩
theorem staInd : Statement .staInd := ⟨rfl, rfl, rfl, .inl rfl⟩
theorem stbInd : Statement .stbInd := ⟨rfl, rfl, rfl, .inl rfl⟩
theorem stcInd : Statement .stcInd := ⟨rfl, rfl, rfl, .inl rfl⟩
theorem inc : Statement .inc := ⟨rfl, rfl, rfl, .inl rfl⟩
theorem dec : Statement .dec := ⟨rfl, rfl, rfl, .inl rfl⟩
theorem con (opnd : Byte) : Statement (.con opnd) := ⟨rfl, rfl, rfl, .inr rfl⟩
theorem jp (opnd : Byte) : Statement (.jp opnd) := ⟨rfl, rfl, rfl, .inr rfl⟩
theorem jz (opnd : Byte) : Statement (.jz opnd) := ⟨rfl, rfl, rfl, .inr rfl⟩
theorem jnz (opnd : Byte) : Statement (.jnz opnd) := ⟨rfl, rfl, rfl, .inr rfl⟩
theorem swb : Statement .swb := ⟨rfl, rfl, rfl, .inl rfl⟩
theorem swc : Statement .swc := ⟨rfl, rfl, rfl, .inl rfl⟩
theorem hcf : Statement .hcf := ⟨rfl, rfl, rfl, .inl rfl⟩

end Sys2Proof.Laws.Encoding
end

