-- ==== Sys2Proof/Laws/Step.lean ====
section
/-! SUPPORT. What `fetch` and `step` answer. -/

namespace Sys2Proof.Machine

/-- The fetch reads the instruction whose bytes stand at the pc. -/
theorem fetch_of_holds {s : State} {i : Instr} (h : s.Holds i) : fetch s = .ok i := by
  have h0 : memRead s s.pc = .ok i.opcode := by simpa using h 0 i.opcode rfl
  have hd : ∀ rest, decode (encode i ++ rest) = .ok (i, rest) := decode_encode_append i
  unfold fetch
  rw [h0]
  cases ho : i.operand with
  | none =>
    have hb : encode i = [i.opcode] := by simp [encode, ho]
    have := hd []
    rw [List.append_nil, hb] at this
    simp [this]
  | some x =>
    have hb : encode i = [i.opcode, x] := by simp [encode, ho]
    have h1 : memRead s (s.pc + 1) = .ok x := h 1 x (by rw [hb]; rfl)
    have h2 := hd []
    rw [List.append_nil, hb] at h2
    have h3 : decode [i.opcode] = .error .missingOperand := by
      cases i <;> first | rfl | cases ho
    simp only [h3, h1, h2]

/-- What the fetch answers is what stands at the pc. -/
theorem holds_of_fetch {s : State} {i : Instr} (h : fetch s = .ok i) : s.Holds i := by
  unfold fetch at h
  split at h
  · cases h
  rename_i op hop
  have single : ∀ j, encode j = [op] → s.Holds j := fun j hj k v hv => by
    rw [hj] at hv
    obtain ⟨rfl, rfl⟩ : k = 0 ∧ op = v := by cases k <;> simp_all
    simpa using hop
  cases h1 : decodeF1 op with
  | some j =>
    simp only [decode, h1] at h
    cases h
    exact single _ (decodeF1_opcode h1)
  | none =>
    cases h2 : decodeF2 op with
    | none => simp [decode, h1, h2] at h
    | some make =>
      simp only [decode, h1, h2] at h
      split at h
      · cases h
      · rename_i x hx
        cases h
        intro k v hv
        rw [decodeF2_opcode h2] at hv
        match k with
        | 0 => cases hv; simpa using hop
        | 1 => cases hv; simpa using hx
        | k + 2 => simp at hv

/-- ONE STEP, EXHAUSTIVELY (R80, R312, R34): a stopped machine stays; a running one is cancelled, or takes the fault of its
fetch, or executes the instruction at its pc. -/
theorem step_cases {s s' : State} (h : step s = .next s') :
    (s.status ≠ .running ∧ s' = s) ∨
    (s.status = .running ∧ s.cancelNow = true ∧ s' = s.setStatus .cancelled) ∨
    (s.Ready ∧ ∃ f, fetch s.pastBoundary = .error f ∧ s' = s.pastBoundary.setStatus (.faulted f)) ∨
    (s.Ready ∧ ∃ i, fetch s.pastBoundary = .ok i ∧ exec i s.pastBoundary = .next s') := by
  unfold step stepFromInput at h
  split at h
  · rename_i hs
    split at h
    · cases h
      exact .inr (.inl ⟨hs, ‹_›, rfl⟩)
    · rename_i hc
      have hr : s.Ready := ⟨hs, by simpa using hc⟩
      unfold runningStep at h
      split at h
      · exact .inr (.inr (.inr ⟨hr, _, ‹_›, h⟩))
      · cases h
        exact .inr (.inr (.inl ⟨hr, _, ‹_›, rfl⟩))
  all_goals
    cases h
    rename_i hs
    exact .inl ⟨by simp [hs], rfl⟩

theorem step_of_ready {s : State} (h : s.Ready) : step s = runningStep s.pastBoundary := by
  unfold step stepFromInput
  simp [h.1, h.2]

/-- The machine never stops outside its state: every step answers a next state. -/
theorem step_next (s : State) : ∃ s', step s = .next s' := by
  by_cases hr : s.Ready
  · rw [step_of_ready hr, runningStep]
    split
    · exact exec_next _ _
    · exact ⟨_, rfl⟩
  · unfold step stepFromInput
    split
    · rename_i hs
      have : s.cancelNow = true := by
        by_contra hc
        exact hr ⟨hs, by simpa using hc⟩
      exact ⟨_, if_pos this⟩
    all_goals exact ⟨_, rfl⟩

/-- The fetch faults only as R310 lists: IllegalAddress or IllegalInstruction. -/
theorem fetch_error {s : State} {f : Fault} (h : fetch s = .error f) : f = .illegalAddress ∨ f = .illegalInstruction := by
  unfold fetch at h
  split at h
  · rename_i hm
    cases h
    exact .inl (memRead_error hm).2
  · split at h
    · cases h
    · split at h
      · rename_i hm
        cases h
        exact .inl (memRead_error hm).2
      · split at h
        · cases h
        · cases h; exact .inr rfl
    · cases h; exact .inr rfl

/-- HCF stands at the pc exactly when the byte there is 0xFF. -/
theorem holds_hcf {s : State} : s.Holds .hcf ↔ memRead s s.pc = .ok 0xFF := by
  constructor
  · intro h
    have := h 0 0xFF rfl
    rwa [show s.pc + BitVec.ofNat 8 0 = s.pc from BitVec.add_zero _] at this
  · intro h k v hv
    match k with
    | 0 =>
      cases hv
      rwa [show s.pc + BitVec.ofNat 8 0 = s.pc from BitVec.add_zero _]
    | k + 1 => simp [encode, Instr.operand] at hv

/-- Two bytes placed where `withFetchWord` places them are both in storage (log 2). -/
theorem State.placeablePc_lt (s : State) : s.placeablePc.toNat + 1 < 0xF0 := by
  unfold State.placeablePc
  split
  · exact inStorage_iff.mp (And.right ‹_›)
  · decide

/-- The frame of a step: the switches and the secrets stay, ROM reads as before, the output only grows, and the cycle counter
grows by at most the largest cost. -/
theorem step_frame {s t : State} (h : step s = .next t) :
    t.cycleSample = s.cycleSample ∧
    t.engine.map (fun e => (e.magic, e.payload)) = s.engine.map (fun e => (e.magic, e.payload)) ∧
    (∀ y < 0x80, t.mem.read y = s.mem.read y) ∧ s.out <+: t.out ∧ s.cycle ≤ t.cycle ∧ t.cycle ≤ s.cycle + 3 := by
  rcases step_cases h with ⟨-, rfl⟩ | ⟨-, -, rfl⟩ | ⟨-, f, -, rfl⟩ | ⟨-, i, -, hx⟩
  · simp
  · simp
  · simp
  · obtain ⟨h1, -, h3, h4, h5, -, h7⟩ := exec_frame hx
    refine ⟨h1, h3, h4, h5, ?_⟩
    have := i.cost_pos
    rcases h7 with ⟨f, -, -, -, -, -, h⟩ | ⟨h, -⟩ <;> (simp [h]; try omega)

end Sys2Proof.Machine
end

