-- ==== Sys2Proof/Laws/Secrets.lean ====
section
/-! SUPPORT. MAGIC and SECRET_PAYLOAD reach nothing but the 32 bytes of the copy: every operation commutes with replacing them. -/

namespace Sys2Proof.Machine

variable {m : Byte} {p : Vector Byte Config.copyLen}

/-- Another draw and another payload. -/
def Engine.withSecrets (e : Engine) (m : Byte) (p : Vector Byte Config.copyLen) : Engine :=
  { e with magic := m, payload := p }

theorem State.withSecrets_engine (s : State) : (s.withSecrets m p).engine = s.engine.map (·.withSecrets m p) := rfl

theorem memRead_withSecrets (s : State) (x : Byte) : memRead (s.withSecrets m p) x = memRead s x := rfl

theorem fetch_withSecrets (s : State) : fetch (s.withSecrets m p) = fetch s := rfl

/-- Replace the secrets in the state a write leaves. -/
def WriteResult.withSecrets (r : WriteResult) (m : Byte) (p : Vector Byte Config.copyLen) : WriteResult :=
  match r with
  | .done s => .done (s.withSecrets m p)
  | .raised f s => .raised f (s.withSecrets m p)

/-- Replace the secrets in the next state. -/
def outcomeWithSecrets (o : Host.Outcome State Fault Refusal) (m : Byte) (p : Vector Byte Config.copyLen) :
    Host.Outcome State Fault Refusal :=
  match o with
  | .next s => .next (s.withSecrets m p)
  | .fault r => .fault r
  | .refused r => .refused r

theorem engineWritePoke_withSecrets {copy copy' : State → WriteResult} {now : Nat} {e : Engine} {v : Byte} {s : State}
    (hc : e.index = 1 → e.inProgress = true →
      copy' ((s.setEngine (e.accept now)).withSecrets m p) = (copy (s.setEngine (e.accept now))).withSecrets m p) :
    engineWritePoke copy' now (e.withSecrets m p) v (s.withSecrets m p) =
      (engineWritePoke copy now e v s).withSecrets m p := by
  by_cases ha : e.Accepts now v
  · have ha' : (e.withSecrets m p).Accepts now v := ha
    rw [engineWritePoke_accepted ha, engineWritePoke_accepted ha']
    by_cases h1 : e.index = 1
    · rw [if_pos h1, if_pos (show (e.withSecrets m p).index = 1 from h1)]
      have hs : (s.withSecrets m p).setEngine ((e.withSecrets m p).accept now) = (s.setEngine (e.accept now)).withSecrets m p := rfl
      rw [hs, completeTransfer, hc h1 ha.1, completeTransfer]
      cases copy (s.setEngine (e.accept now)) with
      | done t =>
        refine congrArg WriteResult.done ?_
        cases ht : t.engine <;> simp [State.endTransfer, State.withSecrets, ht, Engine.idle]
      | raised f t => rfl
    · rw [if_neg h1, if_neg (show ¬ (e.withSecrets m p).index = 1 from h1)]
      rfl
  · unfold engineWritePoke
    have h1 : ¬ (e.inProgress = true ∧ v = e.index ∧ (e.index ≠ 5 → now = e.refCycle + 36)) := ha
    show (if (!e.inProgress) = true then _ else if v ≠ e.index then _
      else if e.index ≠ params.pokeStart ∧ now < e.refCycle + params.pokeGap then _
      else if e.index ≠ params.pokeStart ∧ now > e.refCycle + params.pokeGap then _ else _) = _
    split
    · rfl
    · split
      · rfl
      · split
        · rfl
        · split
          · rfl
          · rename_i h2 h3 h4 h5
            refine absurd ⟨by simpa using h2, by simpa using h3, fun h => ?_⟩ h1
            simp only [not_and, not_lt] at h4 h5
            have := h4 h
            have := h5 h
            omega

theorem memWriteWith_withSecrets {copy copy' : State → WriteResult} {now : Nat} {x v : Byte} {s : State}
    (hc : ∀ e, s.engine = some e → e.index = 1 → e.inProgress = true →
      copy' ((s.setEngine (e.accept now)).withSecrets m p) = (copy (s.setEngine (e.accept now))).withSecrets m p) :
    memWriteWith copy' now x v (s.withSecrets m p) = (memWriteWith copy now x v s).withSecrets m p := by
  rcases region_cases x with hx | ⟨hx, hx'⟩ | rfl | hx
  · rw [memWriteWith_rom hx, memWriteWith_rom hx]; rfl
  · rw [memWriteWith_ram hx hx', memWriteWith_ram hx hx']; rfl
  · rfl
  · cases he : s.engine with
    | none =>
      have he' : (s.withSecrets m p).engine = none := by rw [State.withSecrets_engine, he]; rfl
      have h0 : 0xF0 ≤ x.toNat := by rcases hx with rfl | rfl | rfl | rfl | rfl | hx <;> first | decide | omega
      have h1 : x ≠ 0xF1 := by
        rcases hx with rfl | rfl | rfl | rfl | rfl | hx <;> first | decide | (rintro rfl; simp at hx)
      rw [memWriteWith_base he h0 h1, memWriteWith_base he' h0 h1]
      rfl
    | some e =>
      have he' : (s.withSecrets m p).engine = some (e.withSecrets m p) := by rw [State.withSecrets_engine, he]; rfl
      rcases hx with rfl | rfl | rfl | rfl | hx
      · rw [memWriteWith_dst he, memWriteWith_dst he', engineWriteDst, engineWriteDst]
        show (if e.inProgress = true then _ else _) = _
        split <;> rfl
      · rw [memWriteWith_src he, memWriteWith_src he', engineWriteSrc, engineWriteSrc]
        show (if e.inProgress = true then _ else _) = _
        split <;> rfl
      · rw [memWriteWith_go he, memWriteWith_go he', engineWriteGo, engineWriteGo]
        show (if e.inProgress = true then _ else _) = _
        split <;> rfl
      · rw [memWriteWith_poke he, memWriteWith_poke he']
        exact engineWritePoke_withSecrets (hc e he)
      · rw [memWriteWith_unmapped hx, memWriteWith_unmapped hx]; rfl

theorem copyLoop_withSecrets {now : Nat} {x : Byte} {bs : List Byte} {s : State} (h : Copying now s) :
    copyLoop (copyWrite now) x bs (s.withSecrets m p) = (copyLoop (copyWrite now) x bs s).withSecrets m p := by
  induction bs generalizing x s with
  | nil => rfl
  | cons b bs ih =>
    have hw : copyWrite now x b (s.withSecrets m p) = (copyWrite now x b s).withSecrets m p :=
      memWriteWith_withSecrets fun _ _ _ _ => rfl
    cases hr : copyWrite now x b s with
    | done t =>
      rw [hr] at hw
      rw [copyLoop_cons_done hr, copyLoop_cons_done hw]
      rcases copyWrite_done h hr with ⟨-, -, rfl⟩ | ⟨-, rfl⟩
      · exact ih h
      · exact ih h
    | raised f t =>
      rw [hr] at hw
      rw [copyLoop_cons_raised hr, copyLoop_cons_raised hw]
      rfl

/-- The secrets reach a write only through the bytes a completed handshake copies. -/
theorem memWrite_withSecrets {now : Nat} {x v : Byte} {s : State}
    (h : ∀ e, s.engine = some e → e.inProgress = true → e.index = 1 → (e.withSecrets m p).copyBytes = e.copyBytes) :
    memWrite now x v (s.withSecrets m p) = (memWrite now x v s).withSecrets m p := by
  refine memWriteWith_withSecrets fun e he h1 hp => ?_
  have hb : ((e.accept now).withSecrets m p).copyBytes = e.copyBytes := h e he hp h1
  show copyLoop (copyWrite now) _ ((e.accept now).withSecrets m p).copyBytes _ = _
  rw [hb]
  exact copyLoop_withSecrets (.of_accept hp h1)

theorem exec_withSecrets {i : Instr} {s : State}
    (h : ∀ e, s.engine = some e → e.inProgress = true → e.index = 1 → (e.withSecrets m p).copyBytes = e.copyBytes) :
    exec i (s.withSecrets m p) = outcomeWithSecrets (exec i s) m p := by
  have load : ∀ r x j, loadByte r x j (s.withSecrets m p) = outcomeWithSecrets (loadByte r x j s) m p := fun r x j => by
    unfold loadByte
    rw [memRead_withSecrets]
    cases memRead s x <;> cases r <;> rfl
  have store : ∀ r x j, storeReg r x j (s.withSecrets m p) = outcomeWithSecrets (storeReg r x j s) m p := fun r x j => by
    unfold storeReg
    have hr : (s.withSecrets m p).reg r = s.reg r := by cases r <;> rfl
    rw [hr, show (s.withSecrets m p).now j.cost = s.now j.cost from rfl, memWrite_withSecrets h]
    cases memWrite (s.now j.cost) x (s.reg r) s <;> rfl
  cases i with
  | ldaAddr _ | ldbAddr _ | ldcAddr _ | ldaInd | ldbInd | ldcInd => exact load _ _ _
  | staAddr _ | stbAddr _ | stcAddr _ | staInd | stbInd | stcInd => exact store _ _ _
  | nop | inc | dec | con _ | jp _ | swb | swc | hcf => rfl
  | jz x =>
    show execJz x _ = outcomeWithSecrets (execJz x s) m p
    unfold execJz
    rw [show aIsZero (s.withSecrets m p) = aIsZero s from rfl]
    split <;> rfl
  | jnz x =>
    show execJnz x _ = outcomeWithSecrets (execJnz x s) m p
    unfold execJnz
    rw [show aIsZero (s.withSecrets m p) = aIsZero s from rfl]
    split <;> rfl

end Sys2Proof.Machine
end

