-- ==== Sys2Proof/Tests/Slice0.lean ====
section
/-! SUPPORT. Tests of the model: checks refused, words of the table decoded, one step an instruction against the examples of the
rules and the vectors of 95_test_vectors.md, and a witness for the hypotheses of every statement. -/

namespace Sys2Proof.Tests

open Sys2Proof.Machine

/-! ### Machines to test with -/

/-- 95_test_vectors.md's stand-in payload, S[i] = 0xA0 + i. -/
def payload : Vector Byte 32 := ⟨((List.range 32).map fun i => BitVec.ofNat 8 (0xA0 + i)).toArray, by simp⟩

/-- A running machine of the extended variant with `bytes` from address 0x00, MAGIC 0x07, no cancellation ahead. -/
def rom (bytes : List Byte) : State :=
  { State.reset with mem := Memory.load [] 0 bytes, engine := some (.fresh 0x07 payload) }

/-- The same machine of the base variant. -/
def romBase (bytes : List Byte) : State := { rom bytes with engine := none }

/-- An engine Armed at `index`, the last poke at cycle 6, SRC equal to MAGIC. -/
def armed (index dst : Byte) : Engine :=
  { dst := dst, src := 0x07, inProgress := true, index := index, refCycle := 6, magic := 0x07, payload := payload }

/-- A machine about to run STA 0xF5 with `v` in A at `cycle`, its engine Armed. -/
def poking (index dst v : Byte) (cycle : Nat) : State :=
  { rom [0x11, 0xF5] with a := v, cycle := cycle, engine := some (armed index dst) }

/-- The state after one step. -/
def after (s : State) : State :=
  match step s with
  | .next t => t
  | .fault _ => s
  | .refused _ => s

/-- The fault a status holds, by its code (0 for none). -/
def faultCode (s : State) : Nat := s.status.code

theorem after_step (s : State) : step s = .next (after s) := by
  obtain ⟨t, ht⟩ := step_next s
  simp [after, ht]

/-! ### Checks that refuse -/

theorem test_wf_rom_too_long_refused : romImageOk (List.replicate 129 0x00) = false := by simp [romImageOk]
theorem test_wf_ram_too_long_refused : ramInitOk (List.replicate 113 0x00) = false := by simp [ramInitOk]
theorem test_memory_wf_refuses_unsorted : ¬ Memory.wf [(5, 1), (4, 1)] := by decide
theorem test_memory_wf_refuses_zero_entry : ¬ Memory.wf [(5, 0)] := by decide
theorem test_memory_wf_refuses_outside_storage : ¬ Memory.wf [(0xF0, 1)] := by decide

/-- The table of R4. -/
theorem test_params : params = {
    xlen := 8, romBase := 0x00, romSize := 0x80, ramBase := 0x80, ramSize := 0x70,
    addrOutput := 0xF1, addrDst := 0xF2, addrSrc := 0xF3, addrGo := 0xF4, addrPoke := 0xF5, pokeStart := 5, pokeGap := 36,
    copyLen := 32 } := rfl

/-! ### Decoding, every opcode written out bit by bit from the table (R75) -/

theorem test_decode_loads :
    decode [0b00000000] = .ok (.nop, []) ∧
    decode [0b00000001, 0b10000101] = .ok (.ldaAddr 0x85, []) ∧ decode [0b00000010, 0b10000101] = .ok (.ldbAddr 0x85, []) ∧
    decode [0b00000011, 0b10000101] = .ok (.ldcAddr 0x85, []) ∧ decode [0b00000100] = .ok (.ldaInd, []) ∧
    decode [0b00000101] = .ok (.ldbInd, []) ∧ decode [0b00000110] = .ok (.ldcInd, []) :=
  ⟨rfl, rfl, rfl, rfl, rfl, rfl, rfl⟩

theorem test_decode_stores :
    decode [0b00010001, 0b11101111] = .ok (.staAddr 0xEF, []) ∧ decode [0b00010010, 0b11110001] = .ok (.stbAddr 0xF1, []) ∧
    decode [0b00010011, 0b00000000] = .ok (.stcAddr 0x00, []) ∧ decode [0b00010100] = .ok (.staInd, []) ∧
    decode [0b00010101] = .ok (.stbInd, []) ∧ decode [0b00010110] = .ok (.stcInd, []) :=
  ⟨rfl, rfl, rfl, rfl, rfl, rfl⟩

theorem test_decode_arith :
    decode [0b00100000] = .ok (.inc, []) ∧ decode [0b00100001] = .ok (.dec, []) ∧
    decode [0b00100010, 0b10000000] = .ok (.con 0x80, []) :=
  ⟨rfl, rfl, rfl⟩

theorem test_decode_jumps :
    decode [0b00110000, 0b00001100] = .ok (.jp 0x0C, []) ∧ decode [0b00110001, 0b00011010] = .ok (.jz 0x1A, []) ∧
    decode [0b00110010, 0b00010100] = .ok (.jnz 0x14, []) :=
  ⟨rfl, rfl, rfl⟩

theorem test_decode_swaps_halt :
    decode [0b01000000] = .ok (.swb, []) ∧ decode [0b01000001] = .ok (.swc, []) ∧ decode [0b11111111] = .ok (.hcf, []) :=
  ⟨rfl, rfl, rfl⟩

theorem test_decode_table_word : decodeTableWord 16 0x8501 = some (.ldaAddr 0x85) ∧ decodeTableWord 8 0xFF = some .hcf ∧
    decodeTableWord 8 0x01 = some (.ldaAddr 0x00) ∧ decodeTableWord 8 0x07 = none := by decide

/-! ### One step an instruction -/

/-- R100's example, at cycle 7. -/
theorem test_nop : let t := after { rom [] with pc := 0x10, cycle := 7 }; (t.pc, t.cycle, t.a) = (0x11, 8, 0x00) := by decide
/-- V-SRC-1. -/
theorem test_ldaAddr : let t := after (rom [0x01, 0x05, 0, 0, 0, 0x42]); (t.a, t.pc, t.cycle) = (0x42, 0x02, 1) := by decide
/-- V-LD-3, first step. -/
theorem test_ldbAddr : let t := after (rom [0x02, 0x04, 0xFF, 0, 0x77]); (t.a, t.b, t.c) = (0, 0x77, 0) := by decide
/-- V-LD-4, first step. -/
theorem test_ldcAddr : let t := after (rom [0x03, 0x04, 0xFF, 0, 0x77]); (t.a, t.b, t.c) = (0, 0, 0x77) := by decide
/-- V-LD-5, first step: the old A is the address. -/
theorem test_ldaInd : let t := after (rom [0x04, 0xFF]); (t.a, t.pc, t.cycle) = (0x04, 0x01, 2) := by decide
/-- V-LD-6, second step. -/
theorem test_ldbInd : let t := after { rom [0x05, 0, 0, 0, 0, 0x99] with a := 5 }; (t.a, t.b, t.cycle) = (5, 0x99, 2) := by
  decide
/-- V-LD-7, second step. -/
theorem test_ldcInd : let t := after { rom [0x06, 0, 0, 0, 0, 0x99] with a := 5 }; (t.a, t.c, t.cycle) = (5, 0x99, 2) := by
  decide
/-- V-LD-8, V-LD-9, V-LD-10: loads outside storage. -/
theorem test_lda_faults : let t := after (rom [0x01, 0xF0]); (faultCode t, t.pc, t.cycle) = (1, 0, 0) := by decide
theorem test_lda_output_faults : faultCode (after (rom [0x01, 0xF1])) = 1 ∧ faultCode (after (romBase [0x01, 0xF2])) = 1 := by
  decide
/-- R120's example. -/
theorem test_staAddr : let t := after { rom [0x11, 0xEF] with a := 0x5A }; (memRead t 0xEF).toOption = some 0x5A ∧
    (t.pc, t.cycle) = (0x02, 1) := by decide
/-- R121's example. -/
theorem test_stbAddr : let t := after { romBase [0x12, 0xF1] with b := 0x41 }; (t.out, t.pc, t.cycle) = ([0x41], 2, 1) := by
  decide
/-- R122's example. -/
theorem test_stcAddr : let t := after (rom [0x13, 0x00]); (faultCode t, t.pc, t.cycle, t.mem) = (2, 0, 0, [(0, 0x13)]) := by
  decide
/-- R123's example. -/
theorem test_staInd : let t := after { rom [0x14] with a := 0x9C }; (memRead t 0x9C).toOption = some 0x9C ∧ t.cycle = 2 := by
  decide
/-- R124's example. -/
theorem test_stbInd : let t := after { rom [0x15] with a := 0x80, b := 0x11 }; (memRead t 0x80).toOption = some 0x11 ∧
    t.cycle = 2 := by decide
/-- R125's example. -/
theorem test_stcInd : let t := after { rom [0x16] with a := 0xF1, c := 0x21 }; (t.out, t.pc, t.cycle) = ([0x21], 1, 2) := by
  decide
/-- V-SRC-2. -/
theorem test_inc_wraps : let t := after { rom [0x20] with a := 0xFF }; (t.a, t.pc, t.cycle) = (0x00, 1, 2) := by decide
/-- V-AR-2. -/
theorem test_dec_wraps : let t := after (rom [0x21]); (t.a, t.pc, t.cycle) = (0xFF, 1, 2) := by decide
/-- R142's example. -/
theorem test_con : let t := after (rom [0x22, 0x80]); (t.a, t.pc, t.cycle) = (0x80, 2, 1) := by decide
/-- V-JP-6, first step. -/
theorem test_jp : let t := after (rom [0x30, 0xF0]); (t.pc, t.cycle, faultCode t) = (0xF0, 2, 0) := by decide
/-- V-JP-2 and V-JP-3. -/
theorem test_jz : (after (rom [0x31, 0x04])).pc = 0x04 ∧ (after { rom [0x31, 0x04] with a := 1 }).pc = 0x02 ∧
    (after { rom [0x31, 0x04] with a := 1 }).cycle = 3 := by decide
/-- V-JP-4 and V-JP-5. -/
theorem test_jnz : (after (rom [0x32, 0x04])).pc = 0x02 ∧ (after { rom [0x32, 0x04] with a := 1 }).pc = 0x04 ∧
    (after (rom [0x32, 0x04])).cycle = 3 := by decide
/-- R160's example. -/
theorem test_swb : let t := after { rom [0x40] with a := 0x10, c := 3 }; (t.a, t.b, t.c, t.cycle) = (0, 0x10, 3, 1) := by decide
/-- R161's example. -/
theorem test_swc : let t := after { rom [0x41] with b := 3, c := 0x48 }; (t.a, t.b, t.c, t.cycle) = (0x48, 3, 0, 1) := by decide
/-- V-H-1: HCF, and a further step. -/
theorem test_hcf : let t := after (rom [0xFF]); (t.pc, t.cycle, t.status) = (1, 1, .halted) ∧ after t = t :=
  ⟨by decide, rfl⟩
/-- V-H-3. -/
theorem test_illegal_opcodes : ([0x07, 0x10, 0x17, 0x23, 0x33, 0x42, 0xFE] : List Byte).all
    (fun op => faultCode (after (rom [op])) = 3 && (after (rom [op])).cycle = 0) = true := by decide
/-- V-JP-8, last step: the operand at 0xF0 is fetched though the condition is false. -/
theorem test_operand_fetch_faults :
    let t := after { rom [] with mem := [(0xEF, 0x31)], a := 1, pc := 0xEF }; (faultCode t, t.pc) = (1, 0xEF) := by decide
/-- V-C-1 and V-C-4. -/
theorem test_cancel : let s := { rom [0xFF] with cancelIn := [true] }
    ((after s).status, (after s).pc) = (.cancelled, 0) ∧ (after { s with status := .halted }).status = .halted := by decide

/-! ### The engine -/

/-- V-ENG-1, V-ENG-9, V-ST-12: pokes while Idle, and in the base variant. -/
theorem test_poke_idle : faultCode (after { rom [0x11, 0xF5] with a := 5 }) = 5 ∧
    faultCode (after { rom [0x15] with a := 0xF5 }) = 5 ∧ faultCode (after (romBase [0x11, 0xF5])) = 1 := by decide
/-- V-ENG-2 to V-ENG-4: GO, DST, SRC while Armed. -/
theorem test_busy : ([0xF2, 0xF3, 0xF4] : List Byte).all
    (fun x => faultCode (after { rom [0x11, x] with engine := some (armed 5 0) }) = 4) = true := by decide
/-- R214's example: GO at cycle 4; DST and SRC writes of R211, R212. -/
theorem test_go_dst_src : (after { rom [0x11, 0xF4] with cycle := 4 }).engine.map (fun e => (e.inProgress, e.index, e.refCycle))
      = some (true, 5, 4) ∧ (after { rom [0x11, 0xF2] with a := 0x80 }).engine.map (·.dst) = some 0x80 ∧
    (after { rom [0x11, 0xF3] with a := 0x07 }).engine.map (·.src) = some 0x07 := by decide
/-- R224's example: previous poke at 6, a poke of 4 at 41, 42, 43; and R222's mismatch. -/
theorem test_timing_gate : faultCode (after (poking 4 0 4 41)) = 7 ∧ faultCode (after (poking 4 0 4 43)) = 8 ∧
    (after (poking 4 0 4 42)).engine.map (fun e => (e.index, e.refCycle)) = some (3, 42) ∧
    faultCode (after (poking 5 0 4 42)) = 6 := by decide
/-- V-ENG-12, N = 33: poke 5 by a store of cost 1, poke 4 by one of cost 2, under `post`. -/
theorem test_cycle_sample_post :
    let s := { rom [0x15] with a := 0xF5, b := 4, cycle := 39, engine := some { armed 4 0 with refCycle := 5 } }
    (after { s with cycleSample := .post }).engine.map (fun e => (e.index, e.refCycle)) = some (3, 41) ∧
    faultCode (after { s with engine := some { armed 4 0 with refCycle := 4 } }) = 7 := by decide
/-- V-ENG-21: the highest DST that completes; and a MAGIC that does not match. -/
theorem test_copy : let t := after (poking 1 0xD0 1 42)
    ((memRead t 0xD0).toOption, (memRead t 0xEF).toOption, t.cycle) = (some 0xA0, some 0xBF, 43) ∧
    t.engine.map (fun e => (e.inProgress, e.index, e.refCycle, e.dst)) = some (false, 0, 42, 0xD0) := by decide
theorem test_copy_no_match :
    let t := after { poking 1 0x80 1 42 with engine := some { armed 1 0x80 with src := 0x08 } }
    ((memRead t 0x80).toOption, t.cycle) = (some 0x00, 43) := by decide
/-- V-ENG-22 to V-ENG-30: the fault by DST, and what was written before it. -/
theorem test_copy_faults : (([0x7F, 0xD1, 0xF0, 0xF1, 0xF2, 0xF4, 0xF5, 0xF6, 0xFF] : List Byte).map
    (fun d => faultCode (after (poking 1 d 1 42)))) = [2, 1, 1, 4, 4, 4, 6, 1, 1] := by decide
theorem test_copy_partial : (memRead (after (poking 1 0xD1 1 42)) 0xEF).toOption = some 0xBE ∧
    (after (poking 1 0xF1 1 42)).out = [0xA0] ∧ (after (poking 1 0xF1 1 42)).cycle = 42 := by decide

/-! ### Witnesses: states and operands that meet the hypotheses of the statements -/

theorem ready_rom (bytes : List Byte) : (rom bytes).Ready := ⟨rfl, rfl⟩

theorem holds_of_fetch_eq {s : State} {i : Instr} (h : (fetch s).toOption = some i) : s.Holds i := by
  refine holds_of_fetch ?_
  cases hf : fetch s with
  | error f => rw [hf] at h; cases h
  | ok j => rw [hf] at h; cases h; rfl

theorem rom_wf {bytes : List Byte} (h : bytes.length ≤ 0xF0) : (rom bytes).mem.wf :=
  Memory.load_wf (by omega) Memory.wf_nil

theorem armed_coherent : (armed 4 0x80).Coherent false 42 := by
  refine ⟨by decide, by decide, fun _ => ⟨by decide, by decide⟩⟩

theorem poking_inv : (poking 4 0x80 4 42).Inv :=
  ⟨rom_wf (bytes := [0x11, 0xF5]) (by decide), fun e he => by cases he; exact armed_coherent⟩

/-- The largest image and seed, and the smallest image refused. -/
theorem witness_construction_sizes : (List.replicate 128 (0 : Byte)).length ≤ 128 ∧ (List.replicate 112 (0 : Byte)).length ≤ 112 ∧
    128 < (List.replicate 129 (0 : Byte)).length := by simp

theorem witness_ConstructionMeetsTheInvariant :
    construct { variant := .extended, romImage := [], ramInit := [], magic := Config.magic, payload := Config.secretPayload,
                cycleSample := .pre, cancelIn := [] } = .next State.reset := rfl

theorem witness_StepKeepsTheInvariant : (poking 4 0x80 4 42).Inv ∧
    step (poking 4 0x80 4 42) = .next (after (poking 4 0x80 4 42)) := ⟨poking_inv, after_step _⟩

theorem witness_ReachableStatesMeetTheInvariant : Reachable (after State.reset) :=
  .stepped (.constructed witness_ConstructionMeetsTheInvariant) (after_step _)

/-- For StepKeepsRomAndTheInstance, OutputAndCycleOnlyGrow: a step, and the last ROM address. -/
theorem witness_step_and_rom : step (rom [0x22, 0x80]) = .next (after (rom [0x22, 0x80])) ∧ (0x7F : Byte).toNat < 0x80 :=
  ⟨after_step _, by decide⟩

theorem witness_StoppedMachineDoesNothing : ({ rom [] with status := .halted } : State).status ≠ .running ∧
    ({ rom [] with status := .cancelled } : State).status ≠ .running ∧
    ({ rom [] with status := .faulted .engineBusy } : State).status ≠ .running := by
  refine ⟨by simp, by simp, by simp⟩

theorem witness_CancellationStopsARunningMachine : ({ rom [] with cancelIn := [true, false] } : State).status = .running ∧
    ({ rom [] with cancelIn := [true, false] } : State).cancelIn = true :: [false] := ⟨rfl, rfl⟩

theorem witness_StepRunsTheDecodedInstruction : (rom [0x22, 0x80]).Ready ∧ (rom [0x22, 0x80]).Holds (.con 0x80) :=
  ⟨ready_rom _, holds_of_fetch_eq (by decide)⟩

theorem witness_FetchOutsideStorageFaults : ({ rom [] with pc := 0xF0 } : State).Ready ∧ 0xF0 ≤ (0xF0 : Byte).toNat ∧
    0xF0 ≤ (0xFF : Byte).toNat ∧ ({ rom [] with mem := [(0xEF, 0x22)], pc := 0xEF } : State).Ready ∧
    (memRead { rom [] with mem := [(0xEF, 0x22)], pc := 0xEF } 0xEF).toOption = some 0x22 :=
  ⟨⟨rfl, rfl⟩, by decide, by decide, ⟨rfl, rfl⟩, by decide⟩

theorem witness_IllegalOpcodesAreExactlyTheFiveRanges :
    (∀ rest, decode (0x07 :: rest) = .error (.illegalOpcode 0x07)) ∧ (∀ rest, decode (0xFE :: rest) = .error (.illegalOpcode 0xFE)) ∧
    (rom [0x07]).Ready ∧ (memRead (rom [0x07]) 0x00).toOption = some 0x07 :=
  ⟨fun _ => rfl, fun _ => rfl, ready_rom _, by decide⟩

theorem witness_RunEndsOnlyAsTheDriverSays : (rom [0xFF]).status = .running ∧ step (rom [0xFF]) = .next (after (rom [0xFF])) ∧
    (after (rom [0xFF])).status = .halted ∧ (after { rom [0xFF] with cancelIn := [true] }).status = .cancelled :=
  ⟨rfl, after_step _, by decide, by decide⟩

/-- A fault that changed nothing else, and one inside the copy. -/
theorem witness_FaultsArePrecise : (rom [0x07]).status = .running ∧ step (rom [0x07]) = .next (after (rom [0x07])) ∧
    (after (rom [0x07])).status = .faulted .illegalInstruction ∧
    step (poking 1 0xD1 1 42) = .next (after (poking 1 0xD1 1 42)) ∧
    (after (poking 1 0xD1 1 42)).status = .faulted .illegalAddress :=
  ⟨rfl, after_step _, by decide, after_step _, by decide⟩

theorem witness_PlacedWordIsWhatRuns : State.reset.mem.wf ∧ decodeTableWord 16 0x8022 = some (.con 0x80) :=
  ⟨State.reset_mem_wf, by decide⟩

theorem witness_OpcodeAloneDecidesTheLength : (0x32 : Byte) ∈ ([0x01, 0x02, 0x03, 0x11, 0x12, 0x13, 0x22, 0x30, 0x31, 0x32] : List Byte) ∧
    (0xFF : Byte) ∈ ([0x00, 0x04, 0x05, 0x06, 0x14, 0x15, 0x16, 0x20, 0x21, 0x40, 0x41, 0xFF] : List Byte) ∧
    (0xFE : Byte) ∉ ([0x00, 0x04, 0x05, 0x06, 0x14, 0x15, 0x16, 0x20, 0x21, 0x40, 0x41, 0xFF] : List Byte) ∧
    (0xFE : Byte) ∉ ([0x01, 0x02, 0x03, 0x11, 0x12, 0x13, 0x22, 0x30, 0x31, 0x32] : List Byte) := by decide

theorem witness_IncDecResults : ({ rom [0x21] with a := 0x01 } : State).a = 0x01 := rfl

theorem witness_JumpResult : (rom [0x30, 0xF0]).Ready ∧ (rom [0x30, 0xF0]).Holds (.jp 0xF0) ∧ 0xF0 ≤ (0xF0 : Byte).toNat ∧
    (after (rom [0x30, 0xF0])).cancelNow = false :=
  ⟨ready_rom _, holds_of_fetch_eq (by decide), by decide, by decide⟩

theorem witness_HaltResult : (rom [0xFF]).Ready ∧ (rom [0xFF]).Holds .hcf := ⟨ready_rom _, holds_of_fetch_eq (by decide)⟩

/-- For LoadResults and LoadsOutsideStorageFault: each side of the border 0xF0, direct and indirect. -/
theorem witness_loads : (Instr.ldaAddr 0xEF, Reg.a, (0xEF : Byte)) ∈ loadForms 0xEF (rom []) ∧
    (Instr.ldcInd, Reg.c, (0x00 : Byte)) ∈ loadForms 0 (rom []) ∧ (memRead (rom [7]) 0x00).toOption = some 7 ∧
    (Instr.ldbAddr 0xF0, Reg.b, (0xF0 : Byte)) ∈ loadForms 0xF0 (rom []) ∧
    (Instr.ldaInd, Reg.a, (0xFF : Byte)) ∈ loadForms 0 { rom [] with a := 0xFF } := by decide

/-- For StoreToRamResults, StoreToOutputResults, WritesToRomFault, StoresToUnmappedFault: the borders of each region. -/
theorem witness_stores : (Instr.staAddr 0x80, (0x80 : Byte), (0 : Byte)) ∈ storeForms 0x80 (rom []) ∧
    (Instr.stbInd, (0xEF : Byte), (3 : Byte)) ∈ storeForms 0 { rom [] with a := 0xEF, b := 3 } ∧
    (Instr.stcAddr 0xF1, (0xF1 : Byte), (0 : Byte)) ∈ storeForms 0xF1 (rom []) ∧
    (Instr.staAddr 0x7F, (0x7F : Byte), (0 : Byte)) ∈ storeForms 0x7F (rom []) ∧
    (Instr.staInd, (0xF0 : Byte), (0xF0 : Byte)) ∈ storeForms 0 { rom [] with a := 0xF0 } ∧
    (Instr.stcInd, (0xF6 : Byte), (0 : Byte)) ∈ storeForms 0 { rom [] with a := 0xF6 } ∧
    (Instr.staAddr 0xF5, (0xF5 : Byte), (0 : Byte)) ∈ storeForms 0xF5 (romBase []) ∧ (romBase []).variant = .base := by decide

theorem witness_WritesToRomFault_copy : (poking 1 0x7F 1 42).engine = some (armed 1 0x7F) ∧ (armed 1 0x7F).dst.toNat < 0x80 :=
  ⟨rfl, by decide⟩

/-- P4's shape: STA 0x80 of HCF's opcode, then control at 0x80. Here the store stands at 0x7E, so 0x80 is next. -/
theorem witness_StoreIsSeenByTheNextFetch :
    let s : State := { rom [] with mem := [(0x7E, 0x11), (0x7F, 0x80)], pc := 0x7E, a := 0xFF }
    s.mem.wf ∧ s.Ready ∧ s.Holds (.staAddr 0x80) ∧ (Instr.staAddr 0x80, (0x80 : Byte), (0xFF : Byte)) ∈ storeForms 0x80 s ∧
    (decode [0xFF]).toOption = some (.hcf, []) ∧ step s = .next (after s) ∧ (after s).pc = 0x80 ∧ (after s).cancelNow = false :=
  ⟨by decide, ⟨rfl, rfl⟩, holds_of_fetch_eq (by decide), by decide, by decide, after_step _, by decide, by decide⟩

/-- For OnlyStoresReachMemoryAndDevices, StoresWriteNoRegister, RetirementAddsTheFixedCost. -/
theorem witness_exec_next : isStore .inc = false ∧ (∃ t, exec .inc (rom []) = .next t) ∧ isStore .staInd = true ∧
    (∃ t, exec .staInd (rom []) = .next t) ∧ (rom []).status = .running :=
  ⟨rfl, exec_next _ _, rfl, exec_next _ _, rfl⟩

/-- For DeviceObservesTheSampledCycle: each reading. -/
theorem witness_DeviceObservesTheSampledCycle : (rom []).cycleSample = .pre ∧
    ({ rom [] with cycleSample := .post } : State).cycleSample = .post := ⟨rfl, rfl⟩

/-- For DstSrcWritesAndBusy, GoArmsTheEngine, WrongPokesFault: Idle and Armed, each register. -/
theorem witness_engine_registers : (Instr.staAddr 0xF2, (0xF2 : Byte), (9 : Byte)) ∈ storeForms 0xF2 { rom [] with a := 9 } ∧
    (Instr.staAddr 0xF3, (0xF3 : Byte), (9 : Byte)) ∈ storeForms 0xF3 { rom [] with a := 9 } ∧
    (Instr.stbInd, (0xF4 : Byte), (0 : Byte)) ∈ storeForms 0 { rom [] with a := 0xF4 } ∧
    (Instr.stcAddr 0xF5, (0xF5 : Byte), (0 : Byte)) ∈ storeForms 0xF5 (rom []) ∧
    (rom []).engine = some (.fresh 0x07 payload) ∧ (Engine.fresh 0x07 payload).inProgress = false ∧
    (armed 5 0).inProgress = true ∧ (4 : Byte) ≠ (armed 5 0).index := by
  refine ⟨by decide, by decide, by decide, by decide, rfl, rfl, rfl, by decide⟩

/-- For PokesAreAcceptedExactlyOnTime: one cycle early, exact, one late, the untimed first, and the last. -/
theorem witness_PokesAreAcceptedExactlyOnTime : (Instr.staAddr 0xF5, (0xF5 : Byte), (4 : Byte)) ∈ storeForms 0xF5 (poking 4 0 4 41) ∧
    (poking 4 0 4 41).engine = some (armed 4 0) ∧ (armed 4 0).inProgress = true ∧ (4 : Byte) = (armed 4 0).index ∧
    (armed 4 0).index ≠ 5 ∧ (armed 4 0).index ≠ 1 ∧
    (poking 4 0 4 41).now 1 < (armed 4 0).refCycle + 36 ∧ (armed 4 0).refCycle + 36 < (poking 4 0 4 43).now 1 ∧
    (poking 4 0 4 42).now 1 = (armed 4 0).refCycle + 36 ∧ (armed 5 0).index = 5 ∧ (armed 1 0).index = 1 := by
  refine ⟨by decide, rfl, rfl, by decide, by decide, by decide, by decide, by decide, by decide, rfl, rfl⟩

/-- For TransferCompletes and TransferFaultsByDestination: the poke of 1 on time, and DST at both ends of every row. -/
theorem witness_transfers : ∀ d : Byte, (Instr.staAddr 0xF5, (0xF5 : Byte), (1 : Byte)) ∈ storeForms 0xF5 (poking 1 d 1 42) ∧
    (poking 1 d 1 42).engine = some (armed 1 d) ∧ (armed 1 d).inProgress = true ∧ (armed 1 d).index = 1 ∧
    (poking 1 d 1 42).now (Instr.cost (.staAddr 0xF5)) = (armed 1 d).refCycle + 36 ∧ (armed 1 d).dst = d :=
  fun _ => ⟨by simp [storeForms, directAddr, poking], rfl, rfl, rfl, rfl, rfl⟩

theorem witness_transfer_rows : 0x80 ≤ (0x80 : Byte).toNat ∧ (0xD0 : Byte).toNat ≤ 0xD0 ∧ (0x7F : Byte).toNat < 0x80 ∧
    0xD1 ≤ (0xD1 : Byte).toNat ∧ (0xEF : Byte).toNat ≤ 0xEF ∧ 0xF6 ≤ (0xF6 : Byte).toNat ∧
    (poking 1 0x80 1 42).mem.wf := by decide

theorem witness_CopyUsesTheOneWritePath : (poking 0 0x80 1 6).engine = some (armed 0 0x80) ∧ (armed 0 0x80).inProgress = true ∧
    (armed 0 0x80).index = 0 ∧ (armed 0 0x80).refCycle = 6 := ⟨rfl, rfl, rfl, rfl⟩

theorem witness_EngineMovesOnlyByTheHandshake : step (poking 4 0 4 42) = .next (after (poking 4 0 4 42)) ∧
    (poking 4 0 4 42).engine = some (armed 4 0) ∧
    (after (poking 4 0 4 42)).engine = some { armed 4 0 with index := 3, refCycle := 42 } ∧
    ({ armed 4 0 with index := 3, refCycle := 42 } : Engine) ≠ armed 4 0 :=
  ⟨after_step _, rfl, by decide, by decide⟩

/-- A machine whose poke of 1 is expected, with SRC 0x01 and MAGIC 0x07. -/
def unmatched : State := { poking 1 0x80 1 42 with engine := some { armed 1 0x80 with src := 0x01 } }

theorem run_one {s t : State} (h : step s = .next t) : Host.Core.run Sys2Proof.core 1 s = .next t := by
  have h : Sys2Proof.core.step s = .next t := h
  simp only [Host.Core.run, h]

/-- For SecretsReachOnlyTheCopy and RunsRevealOnlyWhatIsCopied: a poke of 1 is expected, SRC matches neither MAGIC. -/
theorem witness_secrets :
    (∀ e, unmatched.engine = some e → e.inProgress = true → e.index = 1 →
      (if e.src = (0x02 : Byte) then payload.toList else List.replicate 32 0x00) =
        if e.src = e.magic then e.payload.toList else List.replicate 32 0x00) ∧
    step unmatched = .next (after unmatched) ∧ Host.Core.run Sys2Proof.core 1 unmatched = .next (after unmatched) := by
  refine ⟨?_, after_step unmatched, run_one (after_step unmatched)⟩
  intro e he _ _
  cases he
  rw [if_neg (by decide), if_neg (by decide)]

theorem witness_BaseVariantHasNoEngine : (romBase [0x11, 0xF5]).variant = .base ∧ (romBase [0x11, 0xF5]).status = .running ∧
    step (romBase [0x11, 0xF5]) = .next (after (romBase [0x11, 0xF5])) := ⟨rfl, rfl, after_step _⟩

end Sys2Proof.Tests
end

section
/-! PROOFS. The statements about the state (10_state.md): construction and reset, the invariant, what every step leaves
unchanged, and where MAGIC and SECRET_PAYLOAD can reach. -/

namespace Sys2Proof.Machine

/-! ### The step, boundary by boundary -/

/-- R34: a step of a stopped machine answers the state itself. -/
theorem step_of_not_running {s : State} (h : s.status ≠ .running) : step s = .next s := by
  obtain ⟨t, ht⟩ := step_next s
  rcases step_cases ht with ⟨-, rfl⟩ | ⟨hr, -⟩ | ⟨hr, -⟩ | ⟨hr, -⟩
  · exact ht
  · exact absurd hr h
  · exact absurd hr.1 h
  · exact absurd hr.1 h

/-- R312: an asserted signal cancels a running machine. -/
theorem step_of_cancelled {s : State} (h : s.status = .running) (hc : s.cancelNow = true) :
    step s = .next (s.setStatus .cancelled) := by
  unfold step stepFromInput
  simp [h, hc]

/-- A run of `k + 1` steps is one step and a run of `k`. -/
theorem run_succ_of_step {k : Nat} {s u : State} (h : step s = .next u) :
    Host.Core.run Sys2Proof.core (k + 1) s = Host.Core.run Sys2Proof.core k u := by
  have h : Sys2Proof.core.step s = .next u := h
  simp only [Host.Core.run, h]

/-! ### Construction and reset -/

/-- ROM with the image, then RAM with the seed, as construction loads them (R17, R18). -/
def Inputs.mem (x : Inputs) : Memory := (Memory.load [] params.romBase x.romImage).load params.ramBase x.ramInit

/-- The engine construction gives the variant (R22, R37). -/
def Inputs.engine (x : Inputs) : Option Engine :=
  if x.variant = .extended then some (.fresh x.magic x.payload) else none

/-- The machine construction gives: the reset state with memory, engine, sampling switch and
cancellation input as `x` says. -/
def Inputs.machine (x : Inputs) : State :=
  { State.reset with mem := x.mem, engine := x.engine, cycleSample := x.cycleSample, cancelIn := x.cancelIn }

/-- R401: an image and a seed that fit are accepted. -/
theorem construct_of_fits {x : Inputs} (hi : x.romImage.length ≤ 128) (hs : x.ramInit.length ≤ 112) :
    construct x = .next x.machine := by
  unfold construct
  rw [if_neg (by simpa [romImageOk] using hi), if_neg (by simpa [ramInitOk] using hs)]
  cases hv : x.variant <;> simp [Inputs.machine, Inputs.engine, Inputs.mem, State.reset, hv]

/-- R401: construction answers a machine only where the image and the seed fit. -/
theorem construct_next {x : Inputs} {s : State} (h : construct x = .next s) :
    x.romImage.length ≤ 128 ∧ x.ramInit.length ≤ 112 ∧ s = x.machine := by
  have hi : x.romImage.length ≤ 128 := by
    by_contra hi
    rw [construct, if_pos (by simpa [romImageOk] using hi)] at h
    cases h
  have hs : x.ramInit.length ≤ 112 := by
    by_contra hs
    rw [construct, if_neg (by simpa [romImageOk] using hi), if_pos (by simpa [ramInitOk] using hs)] at h
    cases h
  rw [construct_of_fits hi hs] at h
  exact ⟨hi, hs, (Host.Outcome.next.inj h).symm⟩

theorem Inputs.engine_eq_some {x : Inputs} {e : Engine} (h : x.engine = some e) : e = .fresh x.magic x.payload := by
  unfold Inputs.engine at h
  split at h
  · exact (Option.some.inj h).symm
  · cases h

theorem Inputs.machine_variant (x : Inputs) : x.machine.variant = x.variant := by
  cases hv : x.variant <;> simp [State.variant, Inputs.machine, Inputs.engine, hv]

/-- A block loaded into the empty memory: past its end both the list and the memory read 0x00. -/
theorem Memory.read_load_nil {x : Nat} {vs : List Byte} (hx : x + vs.length ≤ 0xF0) (k : Nat) :
    (Memory.load [] x vs).read (x + k) = vs.getD k 0x00 := by
  rw [Memory.read_load hx Memory.wf_nil, Nat.add_sub_cancel_left]
  split
  · rfl
  · rw [List.getD_eq_default _ _ (by omega)]
    rfl

theorem Inputs.mem_eq (x : Inputs) : x.mem = (Memory.load [] 0x00 x.romImage).load 0x80 x.ramInit := rfl

section Fits
variable {x : Inputs} (hi : x.romImage.length ≤ 128) (hs : x.ramInit.length ≤ 112)
include hi

theorem Inputs.rom_wf : (Memory.load [] 0x00 x.romImage).wf := Memory.load_wf (by omega) Memory.wf_nil

/-- The image alone: it reads as itself, then 0x00. -/
theorem Inputs.read_romImage (k : Nat) : (Memory.load [] 0x00 x.romImage).read k = x.romImage.getD k 0x00 := by
  simpa only [Nat.zero_add] using Memory.read_load_nil (x := 0x00) (vs := x.romImage) (by omega) k

include hs

theorem Inputs.mem_wf : x.mem.wf := Memory.load_wf (show 0x80 + x.ramInit.length ≤ 0xF0 by omega) (Inputs.rom_wf hi)

/-- R17: ROM reads as the image, then 0x00. -/
theorem Inputs.read_rom {k : Nat} (hk : k < 0x80) : x.mem.read k = x.romImage.getD k 0x00 := by
  rw [Inputs.mem_eq, Memory.read_load (by omega) (Inputs.rom_wf hi), if_neg (by omega), Inputs.read_romImage hi]

/-- R18: RAM reads as the seed, then 0x00, where the image does not reach. -/
theorem Inputs.read_ram (k : Nat) : x.mem.read (0x80 + k) = x.ramInit.getD k 0x00 := by
  rw [Inputs.mem_eq, Memory.read_load (by omega) (Inputs.rom_wf hi), Nat.add_sub_cancel_left]
  split
  · rfl
  · rw [Inputs.read_romImage hi, List.getD_eq_default _ _ (by omega), List.getD_eq_default _ _ (by omega)]

end Fits

/-- A fresh engine is coherent: Idle, index 0, the recorded cycle 0. -/
theorem Engine.fresh_coherent (m : Byte) (p : Vector Byte Config.copyLen) (faulted : Bool) (cycle : Nat) :
    (Engine.fresh m p).Coherent faulted cycle := by
  simp [Engine.Coherent, Engine.fresh]

theorem construct_reset :
    construct { variant := .extended, romImage := [], magic := Config.magic, payload := Config.secretPayload, cancelIn := [] } =
      .next State.reset := rfl

/-! ### The invariant -/

/-- Coherence carries over to a later cycle, and from any state to one ended by a fault, where less is asked. -/
theorem Engine.Coherent.mono {e : Engine} {b b' : Bool} {n n' : Nat} (h : e.Coherent b n)
    (hle : b' = false → b = false ∧ n ≤ n') : e.Coherent b' n' := by
  obtain ⟨h5, hidle, hlive⟩ := h
  refine ⟨h5, hidle, fun hb' => ?_⟩
  obtain ⟨hb, hn⟩ := hle hb'
  exact ⟨(hlive hb).1, (hlive hb).2.trans hn⟩

theorem State.isFaulted_of_running {s : State} (h : s.status = .running) : s.isFaulted = false := by
  simp [State.isFaulted, h]

/-- No operation that keeps the secrets makes an engine or removes one. -/
theorem engine_isSome_of_secrets {o o' : Option Engine}
    (h : o'.map (fun e => (e.magic, e.payload)) = o.map fun e => (e.magic, e.payload)) : o'.isSome = o.isSome := by
  simpa using congrArg Option.isSome h

/-- Every instruction of a running machine keeps the engine coherent (R25, R26). -/
theorem exec_coherent {i : Instr} {s t : State} {e' : Engine} (hc : ∀ e, s.engine = some e → e.Coherent false s.cycle)
    (h : exec i s = .next t) (he' : t.engine = some e') : e'.Coherent t.isFaulted t.cycle := by
  cases hi : isStore i with
  | false =>
    obtain ⟨u, hu, -, -, heng, -, -, hend⟩ := exec_not_store (s := s) hi
    obtain rfl : u = t := Host.Outcome.next.inj (hu.symm.trans h)
    have hle : s.cycle ≤ u.cycle := by
      rcases hend with rfl | ⟨hcyc, -⟩
      · exact le_rfl
      · omega
    exact (hc e' (heng ▸ he')).mono fun _ => ⟨rfl, hle⟩
  | true =>
    obtain ⟨-, -, hsec, -⟩ := exec_frame h
    obtain ⟨e, he⟩ : ∃ e, s.engine = some e :=
      Option.isSome_iff_exists.mp (by rw [← engine_isSome_of_secrets hsec, he']; rfl)
    obtain ⟨x, v, hdone, hraised⟩ := exec_isStore (s := s) hi
    obtain ⟨hlo, hhi⟩ := s.now_bounds i.cost
    have hwc := memWrite_coherent (x := x) (v := v) (e' := e') he (hc e he) hlo
    have hf := memWrite_frame (now := s.now i.cost) (x := x) (v := v) (s := s)
    cases hw : memWrite (s.now i.cost) x v s with
    | done u =>
      obtain rfl := Host.Outcome.next.inj ((hdone u hw).symm.trans h)
      rw [hw] at hwc hf
      have hcyc : s.now i.cost ≤ u.cycle + i.cost := hf.cycle.symm ▸ hhi
      exact ((hwc he').1 u rfl).mono fun _ => ⟨rfl, hcyc⟩
    | raised f u =>
      obtain rfl := Host.Outcome.next.inj ((hraised f u hw).symm.trans h)
      rw [hw] at hwc
      exact ((hwc he').2 f u rfl).mono (by simp)

/-- Settles O6: a step leaves the state, moves on within the boundary, or executes one instruction, whose memory keeps its form
by the frame and whose engine stays coherent by `exec_coherent`. -/
theorem stepKeepsTheInvariant : Obligations.StepKeepsTheInvariant := by
  rintro s t ⟨hwf, hcoh⟩ h
  have live : s.status = .running → ∀ e, s.engine = some e → e.Coherent false s.cycle := fun hr e he =>
    State.isFaulted_of_running hr ▸ hcoh e he
  rcases step_cases h with ⟨-, rfl⟩ | ⟨hr, -, rfl⟩ | ⟨hr, f, -, rfl⟩ | ⟨hr, i, -, hx⟩
  · exact ⟨hwf, hcoh⟩
  · exact ⟨hwf, live hr⟩
  · exact ⟨hwf, fun e he => (hcoh e he).mono (by simp)⟩
  · obtain ⟨-, -, -, -, -, hmem, -⟩ := exec_frame hx
    exact ⟨hmem hwf, fun e he => exec_coherent (s := s.pastBoundary) (live hr.1) hx he⟩

/-- Settles O5: both blocks are loaded inside the storage, and the engine is fresh. -/
theorem constructionMeetsTheInvariant : Obligations.ConstructionMeetsTheInvariant := by
  intro x s h
  obtain ⟨hi, hs, rfl⟩ := construct_next h
  refine ⟨Inputs.mem_wf hi hs, fun e he => ?_⟩
  rw [Inputs.engine_eq_some he]
  exact Engine.fresh_coherent _ _ _ _

/-- Settles O7, by induction on the steps from construction. -/
theorem reachableStatesMeetTheInvariant : Obligations.ReachableStatesMeetTheInvariant := by
  intro s hs
  induction hs with
  | constructed h => exact constructionMeetsTheInvariant _ _ h
  | stepped _ h ih => exact stepKeepsTheInvariant _ _ ih h

/-- Settles O4: reset is a construction. -/
theorem resetMeetsTheInvariant : Obligations.ResetMeetsTheInvariant :=
  constructionMeetsTheInvariant _ _ construct_reset

/-- Settles O1: each field is as `State.reset` writes it, and the empty memory reads as blank. -/
theorem resetIsTheConstructedMachine : Obligations.ResetIsTheConstructedMachine := by
  refine ⟨rfl, rfl, rfl, rfl, rfl, rfl, rfl, fun x hx => ?_, construct_reset⟩
  exact memRead_storage hx

/-- Settles O2: `construct_of_fits` names the machine; its memory reads as the two blocks loaded. -/
theorem constructionGivesTheResetState : Obligations.ConstructionGivesTheResetState := by
  intro x hi hs
  refine ⟨x.machine, construct_of_fits hi hs, rfl, rfl, rfl, rfl, rfl, rfl, rfl, x.machine_variant, rfl, rfl,
    fun k hk => ?_, fun k hk => ?_, fun e he => Inputs.engine_eq_some he⟩
  · have hx : (BitVec.ofNat 8 k).toNat = k := by rw [BitVec.toNat_ofNat]; omega
    rw [memRead_storage (by omega), hx]
    exact congrArg _ (Inputs.read_rom hi hs hk)
  · have hx : (BitVec.ofNat 8 (0x80 + k)).toNat = 0x80 + k := by rw [BitVec.toNat_ofNat]; omega
    rw [memRead_storage (by omega), hx]
    exact congrArg _ (Inputs.read_ram hi hs k)

/-! ### What every step leaves unchanged -/

theorem State.variant_eq_of_isSome {s t : State} (h : t.engine.isSome = s.engine.isSome) : t.variant = s.variant := by
  unfold State.variant
  cases hs : s.engine <;> cases ht : t.engine <;> simp_all

/-- Settles O8, from the frame of a step. -/
theorem stepKeepsRomAndTheInstance : Obligations.StepKeepsRomAndTheInstance := by
  intro s t h
  obtain ⟨hcs, hsec, hrom, -⟩ := step_frame h
  refine ⟨fun x hx => ?_, State.variant_eq_of_isSome (engine_isSome_of_secrets hsec), hcs, hsec⟩
  rw [memRead_storage (by omega), memRead_storage (by omega), hrom _ hx]

/-- Settles O9, from the frame of a step. -/
theorem outputAndCycleOnlyGrow : Obligations.OutputAndCycleOnlyGrow := by
  intro s t h
  obtain ⟨-, -, -, ⟨l, hl⟩, hlo, hhi⟩ := step_frame h
  exact ⟨⟨l, hl.symm⟩, hlo, hhi⟩

/-- Settles O11, by the law of a stopped step. -/
theorem stoppedMachineDoesNothing : Obligations.StoppedMachineDoesNothing := fun _ h => step_of_not_running h

/-- In the base variant an instruction of a running machine faults only with IllegalAddress or ProtectedWrite (R216). -/
theorem exec_base_fault {i : Instr} {s t : State} {f : Fault} (he : s.engine = none) (hr : s.status = .running)
    (h : exec i s = .next t) (hf : t.status = .faulted f) : f = .illegalAddress ∨ f = .protectedWrite := by
  cases hi : isStore i with
  | false =>
    obtain ⟨u, hu, -, -, -, -, -, rfl | ⟨-, -, hst⟩⟩ := exec_not_store (s := s) hi
    · obtain rfl := Host.Outcome.next.inj (hu.symm.trans h)
      exact .inl (RunStatus.faulted.inj hf).symm
    · obtain rfl := Host.Outcome.next.inj (hu.symm.trans h)
      rw [hst, hr] at hf
      split at hf <;> cases hf
  | true =>
    obtain ⟨x, v, hdone, hraised⟩ := exec_isStore (s := s) hi
    cases hw : memWrite (s.now i.cost) x v s with
    | done u =>
      obtain rfl := Host.Outcome.next.inj ((hdone u hw).symm.trans h)
      have hfr := memWrite_frame (now := s.now i.cost) (x := x) (v := v) (s := s)
      rw [hw] at hfr
      cases (hfr.status.trans hr).symm.trans hf
    | raised g u =>
      obtain rfl := Host.Outcome.next.inj ((hraised g u hw).symm.trans h)
      exact RunStatus.faulted.inj hf ▸ memWrite_base_fault he hw

/-- In the base variant a step of a running machine faults only as its fetch, its loads and its two kinds of bad store do. -/
theorem step_base_fault {s t : State} {f : Fault} (he : s.engine = none) (hr : s.status = .running)
    (h : step s = .next t) (hf : t.status = .faulted f) :
    f = .illegalAddress ∨ f = .illegalInstruction ∨ f = .protectedWrite := by
  rcases step_cases h with ⟨hn, -⟩ | ⟨-, -, rfl⟩ | ⟨-, g, hg, rfl⟩ | ⟨-, i, -, hx⟩
  · exact absurd hr hn
  · cases hf
  · obtain rfl := RunStatus.faulted.inj hf
    exact (fetch_error hg).imp_right .inl
  · exact (exec_base_fault (s := s.pastBoundary) he hr hx hf).imp_right .inr

/-- Settles O49: the variant by O8, the faults by `step_base_fault`. -/
theorem baseVariantHasNoEngine : Obligations.BaseVariantHasNoEngine := by
  intro s t hv hr h
  obtain ⟨-, hvt, -, -⟩ := stepKeepsRomAndTheInstance s t h
  refine ⟨hvt.trans hv, fun f hf hst => ?_⟩
  have he : s.engine = none := by
    unfold State.variant at hv
    split at hv
    · cases hv
    · assumption
  rcases step_base_fault he hr h hst with rfl | rfl | rfl <;> simp at hf

/-! ### Where the secrets reach -/

/-- With the other secrets the copy would write the same bytes, where one is about to happen: the poke of 1 is expected. -/
def State.CopyAgrees (s : State) (m : Byte) (p : Vector Byte Config.copyLen) : Prop :=
  ∀ e, s.engine = some e → e.inProgress = true → e.index = 1 → (e.withSecrets m p).copyBytes = e.copyBytes

section Secrets
variable {s t : State} {m : Byte} {p : Vector Byte Config.copyLen}

/-- One step of a running machine commutes with replacing the secrets. -/
theorem runningStep_withSecrets (h : s.CopyAgrees m p) :
    runningStep (s.withSecrets m p) = outcomeWithSecrets (runningStep s) m p := by
  unfold runningStep
  rw [fetch_withSecrets]
  cases fetch s with
  | ok i => exact exec_withSecrets h
  | error f => rfl

/-- A step commutes with replacing the secrets, whichever way the boundary goes. -/
theorem step_withSecrets (h : s.CopyAgrees m p) (hstep : step s = .next t) :
    step (s.withSecrets m p) = .next (t.withSecrets m p) := by
  by_cases hrun : s.status = .running
  · cases hc : s.cancelNow with
    | true =>
      obtain rfl := Host.Outcome.next.inj ((step_of_cancelled hrun hc).symm.trans hstep)
      exact step_of_cancelled hrun hc
    | false =>
      have hr : (s.withSecrets m p).Ready := ⟨hrun, hc⟩
      rw [step_of_ready ⟨hrun, hc⟩] at hstep
      calc step (s.withSecrets m p)
          = runningStep (s.pastBoundary.withSecrets m p) := step_of_ready hr
        _ = outcomeWithSecrets (runningStep s.pastBoundary) m p := runningStep_withSecrets h
        _ = .next (t.withSecrets m p) := by rw [hstep]; rfl
  · obtain rfl := Host.Outcome.next.inj ((step_of_not_running hrun).symm.trans hstep)
    exact step_of_not_running hrun

/-- A run commutes with replacing the secrets, if no copy on the way tells them apart. -/
theorem run_withSecrets {n : Nat} (h : ∀ k u, k < n → Host.Core.run Sys2Proof.core k s = .next u → u.CopyAgrees m p)
    (hrun : Host.Core.run Sys2Proof.core n s = .next t) :
    Host.Core.run Sys2Proof.core n (s.withSecrets m p) = .next (t.withSecrets m p) := by
  induction n generalizing s with
  | zero =>
    obtain rfl : s = t := Host.Outcome.next.inj hrun
    rfl
  | succ n ih =>
    obtain ⟨u, hu⟩ := step_next s
    have hs : s.CopyAgrees m p := h 0 s (by omega) rfl
    rw [run_succ_of_step (step_withSecrets hs hu)]
    rw [run_succ_of_step hu] at hrun
    exact ih (fun k w hk hw => h (k + 1) w (by omega) ((run_succ_of_step hu).trans hw)) hrun

end Secrets

/-- The host sees neither MAGIC nor the payload (R36, decision D22). -/
theorem State.withSecrets_hostView (s : State) (m : Byte) (p : Vector Byte Config.copyLen) :
    (s.withSecrets m p).hostView = s.hostView := rfl

/-- Settles O48: the hypothesis is `State.CopyAgrees` written out, and a step commutes with replacing the secrets. -/
theorem secretsReachOnlyTheCopy : Obligations.SecretsReachOnlyTheCopy := fun _ _ _ _ h hstep => step_withSecrets h hstep

/-- Settles O50: the run with the other secrets ends in the same state with those secrets in it, and the host sees neither. -/
theorem runsRevealOnlyWhatIsCopied : Obligations.RunsRevealOnlyWhatIsCopied := fun _ _ t m p h hrun =>
  ⟨t.withSecrets m p, run_withSecrets (fun k u hk hu e => h k u e hk hu) hrun, t.withSecrets_hostView m p⟩

end Sys2Proof.Machine
end

section
/-! PROOFS. The statements about memory (20_memory.md): where the fetch faults, what a placed word and a stored byte run as, and
the copy over the one write path. -/

namespace Sys2Proof.Machine

/-! ### The step, by what its fetch answers -/

section Fetch
variable {s : State} {f : Fault} {i : Instr} {op : Byte}

/-- R80, R314: a fault of the fetch is all that the step does. -/
theorem step_of_fetch_error (h : s.Ready) (hf : fetch s = .error f) :
    step s = .next (s.pastBoundary.setStatus (.faulted f)) := by
  have hb : fetch s.pastBoundary = .error f := hf
  rw [step_of_ready h, runningStep, hb]
  rfl

/-- R80: the step runs the instruction whose bytes stand at the pc. -/
theorem step_of_holds (h : s.Ready) (hi : s.Holds i) : step s = exec i s.pastBoundary := by
  have hb : fetch s.pastBoundary = .ok i := fetch_of_holds hi
  rw [step_of_ready h, runningStep, hb]

/-- R48: no opcode is fetched from 0xF0 up. -/
theorem fetch_opcode_device (h : 0xF0 ≤ s.pc.toNat) : fetch s = .error .illegalAddress := by
  rw [fetch, memRead_device h]

/-- R51, R310: behind the opcode of a two-byte instruction, no operand is fetched from 0xF0 up. -/
theorem fetch_operand_device (hop : memRead s s.pc = .ok op) (hd : decode [op] = .error .missingOperand)
    (h : 0xF0 ≤ (s.pc + 1).toNat) : fetch s = .error .illegalAddress := by
  simp only [fetch, hop, hd, memRead_device h]

end Fetch

/-- R71: each of the ten F2 opcodes asks for an operand. -/
theorem decode_f2_alone : ∀ op ∈ ([0x01, 0x02, 0x03, 0x11, 0x12, 0x13, 0x22, 0x30, 0x31, 0x32] : List Byte),
    decode [op] = .error .missingOperand := by
  simp only [List.forall_mem_cons]
  exact ⟨rfl, rfl, rfl, rfl, rfl, rfl, rfl, rfl, rfl, rfl, fun _ h => nomatch h⟩

/-- Settles O14: the opcode fetch faults at 0xF0 up, the operand fetch at 0xF0, and the fetch's fault is the whole step. -/
theorem fetchOutsideStorageFaults : Obligations.FetchOutsideStorageFaults := by
  refine fun s hr => ⟨fun hpc => step_of_fetch_error hr (fetch_opcode_device hpc), ?_⟩
  rintro hpc ⟨op, hmem, hop⟩
  have hnext : 0xF0 ≤ (s.pc + 1).toNat := by rw [hpc]; decide
  exact step_of_fetch_error hr (fetch_operand_device hop (decode_f2_alone op hmem) hnext)

/-! ### What placed and stored bytes run as -/

/-- The decoder reads exactly the encodings: `decode_encode_append` and its converse. -/
theorem decode_ok_iff {bytes rest : List Byte} {i : Instr} : decode bytes = .ok (i, rest) ↔ bytes = encode i ++ rest := by
  refine ⟨fun h => ?_, fun h => h ▸ decode_encode_append i rest⟩
  cases bytes with
  | nil => cases h
  | cons op tail =>
    unfold decode at h
    cases h1 : decodeF1 op with
    | some j =>
      simp only [h1] at h
      cases h
      rw [decodeF1_opcode h1]
      rfl
    | none =>
      cases h2 : decodeF2 op with
      | none => simp [h1, h2] at h
      | some make =>
        cases tail with
        | nil => simp [h1, h2] at h
        | cons opnd tail =>
          simp only [h1, h2] at h
          cases h
          rw [decodeF2_opcode h2]
          rfl

@[simp] theorem State.placeBytes_pc (s : State) (bytes : List Byte) : (s.placeBytes bytes).pc = s.placeablePc := rfl
@[simp] theorem State.placeBytes_mem (s : State) (bytes : List Byte) :
    (s.placeBytes bytes).mem = s.mem.load s.placeablePc.toNat bytes := rfl

/-- Up to two bytes placed at the placeable pc read back from there (log 2). -/
theorem memRead_placeBytes {s : State} {bytes : List Byte} {k : Nat} {v : Byte} (hwf : s.mem.wf) (hl : bytes.length ≤ 2)
    (hk : bytes[k]? = some v) :
    memRead (s.placeBytes bytes) ((s.placeBytes bytes).pc + BitVec.ofNat 8 k) = .ok v := by
  obtain ⟨hlt, hget⟩ := List.getElem?_eq_some_iff.mp hk
  have hp := s.placeablePc_lt
  have haddr : (s.placeablePc + BitVec.ofNat 8 k).toNat = s.placeablePc.toNat + k := by
    rw [BitVec.toNat_add, BitVec.toNat_ofNat]
    omega
  have hread : (s.mem.load s.placeablePc.toNat bytes).read (s.placeablePc.toNat + k) = v := by
    rw [Memory.read_load (by omega) hwf, if_pos (by omega), Nat.add_sub_cancel_left, List.getD_eq_getElem _ _ hlt, hget]
  rw [State.placeBytes_pc, memRead_storage (by omega), haddr, State.placeBytes_mem, hread]

/-- An instruction at the head of the placed bytes stands at the pc. -/
theorem holds_placeBytes {s : State} {i : Instr} {rest : List Byte} (hwf : s.mem.wf)
    (hl : (encode i ++ rest).length ≤ 2) : (s.placeBytes (encode i ++ rest)).Holds i := by
  intro k v hv
  obtain ⟨hlt, -⟩ := List.getElem?_eq_some_iff.mp hv
  exact memRead_placeBytes hwf hl (by rwa [List.getElem?_append_left hlt])

/-- A table word is read as `i` when its two bytes begin with the encoding of `i`. -/
theorem tableWordBytes_of_decodeTableWord {nbits w : Nat} {i : Instr} (h : decodeTableWord nbits w = some i) :
    ∃ rest, tableWordBytes nbits w = encode i ++ rest := by
  unfold decodeTableWord at h
  split at h
  · rename_i j rest hd
    cases h
    exact ⟨rest, decode_ok_iff.mp hd⟩
  · cases h

/-- Settles O18: the placed bytes begin with the encoding of `i`, so it stands at the pc; the placed state is Ready, and its
empty cancellation input does not move. -/
theorem placedWordIsWhatRuns : Obligations.PlacedWordIsWhatRuns := by
  intro s nbits w i hwf hw
  obtain ⟨rest, hbytes⟩ := tableWordBytes_of_decodeTableWord hw
  have hl : (encode i ++ rest).length ≤ 2 := hbytes ▸ le_rfl
  have hready : (s.withFetchWord nbits w).Ready := ⟨rfl, rfl⟩
  have hholds : (s.withFetchWord nbits w).Holds i := by
    rw [State.withFetchWord, hbytes]
    exact holds_placeBytes hwf hl
  exact step_of_holds hready hholds

/-- A store to RAM writes its byte and retires (R45, R126). -/
theorem exec_store_ram {i : Instr} {opnd x v : Byte} {s : State} (h : (i, x, v) ∈ storeForms opnd s)
    (hlo : 0x80 ≤ x.toNat) (hhi : x.toNat < 0xF0) :
    exec i s = .next ((s.storeByte x.toNat v).retireTo (s.seqPc i) i.cost) := by
  rw [exec_store h, memWrite, memWriteWith_ram hlo hhi]
  rfl

/-- A one-byte instruction stands at the pc when its byte is read there. -/
theorem holds_of_memRead {s : State} {i : Instr} {op : Byte} (hi : encode i = [op]) (h : memRead s s.pc = .ok op) :
    s.Holds i := by
  intro k v hv
  rw [hi] at hv
  obtain ⟨rfl, rfl⟩ : k = 0 ∧ op = v := by cases k <;> simp_all
  simpa using h

/-- Settles O35: the store's step leaves `v` at `x` and the machine Running, so at `pc = x` the instruction `v` encodes stands. -/
theorem storeIsSeenByTheNextFetch : Obligations.StoreIsSeenByTheNextFetch := by
  intro s t opnd x v i j hwf hr hi hform hlo hhi hj hstep hpc hcancel
  have hexec := exec_store_ram (s := s.pastBoundary) hform hlo hhi
  obtain rfl := Host.Outcome.next.inj (hexec.symm.trans ((step_of_holds hr hi).symm.trans hstep))
  have henc : encode j = [v] := by simpa using (decode_ok_iff.mp hj).symm
  have hread : (s.mem.write x.toNat v).read x.toNat = v := (Memory.read_write hwf _ _ _).trans (if_pos rfl)
  refine step_of_holds ⟨hr.1, hcancel⟩ (holds_of_memRead henc ?_)
  rw [hpc, memRead_storage hhi]
  exact congrArg Except.ok hread

/-! ### The copy -/

/-- Settles O46: the engine is as it stands during a copy, where the loop over `MemWrite` is the loop over `copyWrite`
(`copyLoop_full_memWrite`). -/
theorem copyUsesTheOneWritePath : Obligations.CopyUsesTheOneWritePath := by
  intro now s e he hp h0 hr
  rw [copyLoop_full_memWrite ⟨e, he, hp, h0, hr⟩, engineCopy, he]

end Sys2Proof.Machine
end

section
/-! PROOFS. The statements about encoding (30_encoding.md): which bytes decode and to what, that every step answers a next state,
and what an instruction adds to the cycle counter. -/

namespace Sys2Proof

/-! ### The opcode bytes the decoder knows -/

/-- The twelve opcode bytes of format F1 (R71, R75). -/
def f1Opcodes : List Byte := [0x00, 0x04, 0x05, 0x06, 0x14, 0x15, 0x16, 0x20, 0x21, 0x40, 0x41, 0xFF]

/-- The ten opcode bytes of format F2 (R71, R75). -/
def f2Opcodes : List Byte := [0x01, 0x02, 0x03, 0x11, 0x12, 0x13, 0x22, 0x30, 0x31, 0x32]

section Opcode
variable {op : Byte} {i : Instr} {make : Byte → Instr}

/-- The F1 table has a row for each of its twelve opcodes and for no other byte. -/
theorem decodeF1_isSome : (decodeF1 op).isSome = true ↔ op ∈ f1Opcodes := by
  unfold decodeF1
  split <;> simp_all [f1Opcodes, ← BitVec.toNat_inj]

/-- The F2 table has a row for each of its ten opcodes and for no other byte. -/
theorem decodeF2_isSome : (decodeF2 op).isSome = true ↔ op ∈ f2Opcodes := by
  unfold decodeF2
  split <;> simp_all [f2Opcodes, ← BitVec.toNat_inj]

theorem size_of_decodeF1 (h : decodeF1 op = some i) : i.size = 1 := by
  rw [← encode_length, decodeF1_opcode h]
  rfl

theorem size_of_decodeF2 (h : decodeF2 op = some make) (x : Byte) : (make x).size = 2 := by
  rw [← encode_length, decodeF2_opcode h]
  rfl

/-- R76: an opcode is illegal exactly when neither format has it. -/
theorem decode_illegal_iff_not_mem :
    (∀ rest, decode (op :: rest) = .error (.illegalOpcode op)) ↔ op ∉ f1Opcodes ∧ op ∉ f2Opcodes := by
  rw [decode_illegal_iff, ← decodeF1_isSome, ← decodeF2_isSome]
  simp

/-- R76: the opcodes of neither format are the five gaps between those of the table. -/
theorem not_mem_opcodes_iff : op ∉ f1Opcodes ∧ op ∉ f2Opcodes ↔
    (0x07 ≤ op.toNat ∧ op.toNat ≤ 0x10) ∨ (0x17 ≤ op.toNat ∧ op.toNat ≤ 0x1F) ∨ (0x23 ≤ op.toNat ∧ op.toNat ≤ 0x2F) ∨
    (0x33 ≤ op.toNat ∧ op.toNat ≤ 0x3F) ∨ (0x42 ≤ op.toNat ∧ op.toNat ≤ 0xFE) := by
  have hlt := op.isLt
  simp only [f1Opcodes, f2Opcodes, List.mem_cons, List.not_mem_nil, or_false, not_or, ← BitVec.toNat_inj,
    BitVec.ofNat_eq_ofNat, BitVec.reduceToNat]
  omega

end Opcode

/-- Whatever byte follows the opcode of `i`, what the decoder reads there is of the row of `i` (R71, R81). -/
theorem row_of_decode_opcode (i : Instr) (x : Byte) :
    ∃ j rest, decode [i.opcode, x] = .ok (j, rest) ∧ j.row = i.row := by
  cases i <;> exact ⟨_, _, rfl, rfl⟩

/-- The opcode alone decides the row of the size and cost columns (R71, R81). -/
theorem row_eq_of_opcode_eq {i j : Instr} (h : i.opcode = j.opcode) : i.row = j.row := by
  obtain ⟨i', _, hi, hrow⟩ := row_of_decode_opcode i 0x00
  obtain ⟨j', _, hj, hrow'⟩ := row_of_decode_opcode j 0x00
  rw [h, hj] at hi
  cases hi
  exact hrow.symm.trans hrow'

end Sys2Proof

namespace Sys2Proof.Machine

/-- Settles O20: `decode_ok_iff`, which reads the two decoder tables back as encodings. -/
theorem decodeAndEncodeAgree : Obligations.DecodeAndEncodeAgree := fun _ _ _ => decode_ok_iff

/-- Settles O10: every instruction answers a next state, and so does every step. -/
theorem everyStepAnswersANextState : Obligations.EveryStepAnswersANextState := ⟨exec_next, step_next⟩

/-- R303: behind an illegal opcode nothing more is fetched. -/
theorem fetch_illegal {s : State} {op : Byte} (hop : memRead s s.pc = .ok op)
    (hd : decode [op] = .error (.illegalOpcode op)) : fetch s = .error .illegalInstruction := by
  simp only [fetch, hop, hd]

/-- Settles O15: the illegal opcodes are those in neither format, which leave the five ranges; the fetch of one faults, and the
fetch's fault is the whole step. -/
theorem illegalOpcodesAreExactlyTheFiveRanges : Obligations.IllegalOpcodesAreExactlyTheFiveRanges := fun _ =>
  ⟨decode_illegal_iff_not_mem.trans not_mem_opcodes_iff,
   fun hillegal _ hr hop => ⟨_, step_of_fetch_error hr (fetch_illegal hop (hillegal [])), rfl⟩⟩

/-- R71: an F2 opcode takes the next byte, whatever it is. -/
theorem decode_f2_operand {op x : Byte} {rest : List Byte} (h : op ∈ f2Opcodes) :
    ∃ i, decode (op :: x :: rest) = .ok (i, rest) ∧ i.size = 2 := by
  obtain ⟨make, hmake⟩ := Option.isSome_iff_exists.mp (decodeF2_isSome.mpr h)
  have henc : op :: x :: rest = encode (make x) ++ rest := by rw [decodeF2_opcode hmake]; rfl
  exact ⟨make x, decode_ok_iff.mpr henc, size_of_decodeF2 hmake x⟩

/-- R71: an F1 opcode takes no other byte. -/
theorem decode_f1 {op : Byte} {rest : List Byte} (h : op ∈ f1Opcodes) :
    ∃ i, decode (op :: rest) = .ok (i, rest) ∧ i.size = 1 := by
  obtain ⟨i, hi⟩ := Option.isSome_iff_exists.mp (decodeF1_isSome.mpr h)
  have henc : op :: rest = encode i ++ rest := by rw [decodeF1_opcode hi]; rfl
  exact ⟨i, decode_ok_iff.mpr henc, size_of_decodeF1 hi⟩

/-- Settles O19, format by format. -/
theorem opcodeAloneDecidesTheLength : Obligations.OpcodeAloneDecidesTheLength := by
  intro op rest
  refine ⟨fun h2 => ⟨?_, ?_⟩, decode_f1, fun h2 h1 => decode_illegal_iff_not_mem.mpr ⟨h1, h2⟩ rest⟩
  · rintro rfl
    exact decode_f2_alone op h2
  · rintro x rest' rfl
    exact decode_f2_operand h2

/-- Settles O38: the cost is read off the row, which the opcode decides; `exec_frame` says how an instruction ends. -/
theorem retirementAddsTheFixedCost : Obligations.RetirementAddsTheFixedCost := by
  refine ⟨fun i j h => congrArg OpcodeRow.cost (row_eq_of_opcode_eq h), fun i s t _ hexec => ?_⟩
  obtain ⟨-, -, -, -, -, -, ⟨f, hf, -⟩ | ⟨hcycle, hpc, -⟩⟩ := exec_frame hexec
  · exact .inl ⟨f, hf⟩
  · exact .inr ⟨hcycle, hpc⟩

/-- Settles O13: the fetch reads the instruction that stands at the pc. -/
theorem stepRunsTheDecodedInstruction : Obligations.StepRunsTheDecodedInstruction := fun _ _ => step_of_holds

/-- Settles O21: each word is the encoding of its instruction, which the decoder reads back. -/
theorem wordsOfTheTableDecode : Obligations.WordsOfTheTableDecode := by
  simp only [Obligations.WordsOfTheTableDecode, decode_ok_iff]
  exact ⟨rfl, rfl, rfl, rfl, rfl, rfl, rfl, rfl, rfl, rfl⟩

/-- Settles O22, row by row of the configuration's columns. -/
theorem opcodeTableColumns : Obligations.OpcodeTableColumns := fun _ => rfl

/-- R82, decision D5: the count of the start of the step. -/
theorem State.now_pre {s : State} (h : s.cycleSample = .pre) (cost : Nat) : s.now cost = s.cycle := by
  simp only [State.now, h]

/-- R82: the count once the storing instruction has retired. -/
theorem State.now_post {s : State} (h : s.cycleSample = .post) (cost : Nat) : s.now cost = s.cycle + cost := by
  simp only [State.now, h]

/-- Settles O39, reading by reading. -/
theorem deviceObservesTheSampledCycle : Obligations.DeviceObservesTheSampledCycle := fun _ cost =>
  ⟨fun h => State.now_pre h cost, fun h => State.now_post h cost⟩

end Sys2Proof.Machine
end

section
/-! PROOFS. The statements about NOP, CON and the loads (40_nop_and_loads.md, 42_arith_const.md): what each writes, where a load
faults, and that nothing but a store reaches memory and the devices. -/

namespace Sys2Proof.Machine

/-- Writing one general register, said for all three at once. -/
theorem State.setReg_eq (s : State) (r : Reg) (v : Byte) :
    s.setReg r v =
      { s with a := if r = .a then v else s.a, b := if r = .b then v else s.b, c := if r = .c then v else s.c } := by
  cases r <;> rfl

section Load
variable {i : Instr} {r : Reg} {opnd x v : Byte} {s : State}

/-- A load whose read answers a byte writes it to its register and retires. -/
theorem exec_load_ok (h : (i, r, x) ∈ loadForms opnd s) (hv : memRead s x = .ok v) :
    exec i s = .next ((s.setReg r v).retireTo (s.seqPc i) i.cost) := by
  rw [exec_load h, hv]

/-- A load whose read faults takes that fault and does nothing else (R107). -/
theorem exec_load_error {f : Fault} (h : (i, r, x) ∈ loadForms opnd s) (hf : memRead s x = .error f) :
    exec i s = .next (s.setStatus (.faulted f)) := by
  rw [exec_load h, hf]

end Load

/-- Settles O29: the load retires with the byte read in its register. -/
theorem loadResults : Obligations.LoadResults := by
  intro s opnd x v i r hform _ hread
  rw [exec_load_ok hform hread, State.setReg_eq]
  rfl

/-- Settles O30: the read path raises IllegalAddress from 0xF0 up, and the load takes it. -/
theorem loadsOutsideStorageFault : Obligations.LoadsOutsideStorageFault := fun _ _ _ _ _ hform hx =>
  exec_load_error hform (memRead_device hx)

/-- Settles O36: `exec_not_store` says what the next state of any other instruction keeps. -/
theorem onlyStoresReachMemoryAndDevices : Obligations.OnlyStoresReachMemoryAndDevices := by
  intro i s t hi hexec
  obtain ⟨u, hu, hmem, hout, hengine, -⟩ := exec_not_store (s := s) hi
  obtain rfl := Host.Outcome.next.inj (hu.symm.trans hexec)
  exact ⟨hmem, hout, hengine⟩

/-- Settles O23: both retire by the table's size and cost, CON with its operand in A; each part holds by computation. -/
theorem nopAndConResults : Obligations.NopAndConResults := fun _ _ => ⟨rfl, rfl, rfl, rfl⟩

end Sys2Proof.Machine
end

section
/-! PROOFS. The statements about the stores (41_stores.md): what a store into RAM changes, and that no store writes a register. -/

namespace Sys2Proof.Machine

/-- The read path after one byte of storage is written: the address written reads the value written, every other address, device
addresses among them, as before (R44, R45). -/
theorem memRead_storeByte {s : State} {x v : Byte} (hwf : s.mem.wf) (hx : x.toNat < 0xF0) (y : Byte) :
    memRead (s.storeByte x.toNat v) y = if y = x then .ok v else memRead s y := by
  by_cases hy : y.toNat < 0xF0
  · rw [memRead_storage hy, memRead_storage hy, State.storeByte_mem, Memory.read_write hwf, apply_ite Except.ok]
    simp only [BitVec.toNat_inj]
  · have hne : y ≠ x := by rintro rfl; exact hy hx
    rw [if_neg hne, memRead_device (by omega), memRead_device (by omega)]

/-- Settles O31: the next state is the byte stored and the retirement over it (`exec_store_ram`). -/
theorem storeToRamResults : Obligations.StoreToRamResults := by
  intro s opnd x v i hform hlo hhi
  refine ⟨_, exec_store_ram hform hlo hhi, rfl, fun hwf => ⟨Memory.write_wf hhi hwf, fun y => ?_⟩⟩
  exact memRead_storeByte hwf hhi y

/-- Settles O37: the write leaves the registers (`memWrite_frame`), and neither the retirement over it nor its fault writes one. -/
theorem storesWriteNoRegister : Obligations.StoresWriteNoRegister := by
  intro i s t hi hexec
  obtain ⟨x, v, hdone, hraised⟩ := exec_isStore (s := s) hi
  have hframe := memWrite_frame (now := s.now i.cost) (x := x) (v := v) (s := s)
  cases hw : memWrite (s.now i.cost) x v s with
  | done u =>
    obtain rfl := Host.Outcome.next.inj ((hdone u hw).symm.trans hexec)
    rw [hw] at hframe
    exact ⟨hframe.a, hframe.b, hframe.c⟩
  | raised f u =>
    obtain rfl := Host.Outcome.next.inj ((hraised f u hw).symm.trans hexec)
    rw [hw] at hframe
    exact ⟨hframe.a, hframe.b, hframe.c⟩

end Sys2Proof.Machine
end

section
/-! PROOFS. The statements about INC and DEC (42_arith_const.md), and what the conditional jumps that read their result do
(43_jumps.md). -/

namespace Sys2Proof.Machine

/-- R140: INC's result, as a sum modulo 256. -/
theorem incByte_eq (v : Byte) : incByte v = BitVec.ofNat 8 ((v.toNat + 1) % 256) := by
  apply BitVec.eq_of_toNat_eq
  simp [incByte, BitVec.toNat_add]

/-- R141: DEC's result, as a sum modulo 256. -/
theorem decByte_eq (v : Byte) : decByte v = BitVec.ofNat 8 ((v.toNat + 255) % 256) := by
  apply BitVec.eq_of_toNat_eq
  simp [decByte, BitVec.toNat_sub, Nat.add_comm]

/-- R15: the condition of the conditional jumps is the value of A. -/
theorem aIsZero_iff {s : State} : aIsZero s = true ↔ s.a.toNat = 0 := by
  simp [aIsZero, ← BitVec.toNat_inj]

/-- R140: INC writes A and retires. -/
theorem exec_inc (s : State) : exec .inc s = .next { s with a := incByte s.a, pc := s.pc + 1, cycle := s.cycle + 2 } := rfl

/-- R141: DEC writes A and retires. -/
theorem exec_dec (s : State) : exec .dec s = .next { s with a := decByte s.a, pc := s.pc + 1, cycle := s.cycle + 2 } := rfl

/-- R151: JZ, taken and not taken in one equation. -/
theorem exec_jz (s : State) (x : Byte) :
    exec (.jz x) s = .next { s with pc := if s.a.toNat = 0 then x else s.pc + 2, cycle := s.cycle + 3 } := by
  change execJz x s = _
  simp only [execJz, aIsZero_iff]
  split <;> rfl

/-- R152: JNZ, taken and not taken in one equation. -/
theorem exec_jnz (s : State) (x : Byte) :
    exec (.jnz x) s = .next { s with pc := if s.a.toNat = 0 then s.pc + 2 else x, cycle := s.cycle + 3 } := by
  change execJnz x s = _
  simp only [execJnz, aIsZero_iff]
  split <;> rfl

/-- Settles O24: the results are `incByte` and `decByte` as sums; a DEC of 0x01 leaves 0x00 in A, where JZ goes to its target
and JNZ past it. -/
theorem incDecResults : Obligations.IncDecResults := by
  refine ⟨rfl, rfl, fun s => ⟨?_, ?_, fun ha => ⟨_, exec_dec s, fun x => ?_⟩⟩⟩
  · rw [exec_inc, incByte_eq]
  · rw [exec_dec, decByte_eq]
  · have hzero : (decByte s.a).toNat = 0 := by rw [ha]; rfl
    rw [exec_jz, exec_jnz, if_pos hzero, if_pos hzero]
    exact ⟨rfl, rfl⟩

end Sys2Proof.Machine
end

section
/-! PROOFS. The statements about the jumps (43_jumps.md): where JP, JZ and JNZ send control, and that a target that cannot be
fetched from faults in the step after the jump. -/

namespace Sys2Proof.Machine

/-- R150: JP sends control to its operand byte and retires. -/
theorem exec_jp (s : State) (x : Byte) : exec (.jp x) s = .next { s with pc := x, cycle := s.cycle + 2 } := rfl

/-- Settles O25: the jump's step retires whatever its target is (`exec_jp`), and from a target at 0xF0 up the next opcode fetch
faults, which is all the next step does (`step_of_fetch_error`). -/
theorem jumpResult : Obligations.JumpResult := by
  refine ⟨fun s x => ⟨exec_jp s x, rfl⟩, fun s x hr hi hx => ?_⟩
  have hjump : step s = .next { s.pastBoundary with pc := x, cycle := s.cycle + 2 } :=
    (step_of_holds hr hi).trans (exec_jp s.pastBoundary x)
  refine ⟨_, hjump, hr.1, rfl, rfl, fun hcancel => ?_⟩
  exact ⟨_, step_of_fetch_error ⟨hr.1, hcancel⟩ (fetch_opcode_device hx), rfl, rfl, rfl⟩

/-- Settles O26: `exec_jz` and `exec_jnz` give both outcomes, and the encodings hold by computation. -/
theorem conditionalJumpResults : Obligations.ConditionalJumpResults := fun s x => ⟨exec_jz s x, exec_jnz s x, rfl, rfl⟩

end Sys2Proof.Machine
end

section
/-! PROOFS. The statements about the register swaps (44_swaps.md): what SWB and SWC exchange, and what they do in sequence. -/

namespace Sys2Proof.Machine

/-- R160: SWB exchanges A and B and retires. -/
theorem exec_swb (s : State) :
    exec .swb s = .next { s with a := s.b, b := s.a, pc := s.pc + 1, cycle := s.cycle + 1 } := rfl

/-- R161: SWC exchanges A and C and retires. -/
theorem exec_swc (s : State) :
    exec .swc s = .next { s with a := s.c, c := s.a, pc := s.pc + 1, cycle := s.cycle + 1 } := rfl

/-- R160: the second SWB puts back what the first exchanged. -/
theorem exec_swb_swb (s : State) :
    ∃ t, exec .swb s = .next t ∧ exec .swb t = .next { s with pc := s.pc + 2, cycle := s.cycle + 2 } := by
  have hpc : s.pc + 1 + 1 = s.pc + 2 := BitVec.add_assoc s.pc 1 1
  refine ⟨_, exec_swb s, ?_⟩
  rw [exec_swb, hpc]

/-- R161: there is no direct swap of B with C; SWB, SWC, SWB passes both through A. -/
theorem exec_swb_swc_swb (s : State) :
    ∃ t u, exec .swb s = .next t ∧ exec .swc t = .next u ∧
      exec .swb u = .next { s with b := s.c, c := s.b, pc := s.pc + 3, cycle := s.cycle + 3 } := by
  have hpc : s.pc + 1 + 1 + 1 = s.pc + 3 := by rw [BitVec.add_assoc, BitVec.add_assoc]; rfl
  refine ⟨_, _, exec_swb s, exec_swc _, ?_⟩
  rw [exec_swb, hpc]

/-- Settles O27: each swap alone, then the two sequences; the encodings hold by computation. -/
theorem swapResults : Obligations.SwapResults :=
  ⟨rfl, rfl, fun s => ⟨exec_swb s, exec_swc s, exec_swb_swb s, exec_swb_swc_swb s⟩⟩

end Sys2Proof.Machine
end

section
/-! PROOFS. The statements about HCF (45_halt_and_illegal.md): how it retires, and that the machine it halts stays as it is. -/

namespace Sys2Proof.Machine

/-- R170, decision D7: HCF retires and halts. -/
theorem exec_hcf (s : State) :
    exec .hcf s = .next { s with pc := s.pc + 1, cycle := s.cycle + 1, status := .halted } := rfl

/-- Settles O28: the step that runs HCF ends in `exec_hcf`'s halted state, where the next step changes nothing
(`step_of_not_running`). -/
theorem haltResult : Obligations.HaltResult := by
  refine ⟨rfl, fun s => ⟨exec_hcf s, fun hr hi => ?_⟩⟩
  have hhalt : step s = .next { s.pastBoundary with pc := s.pc + 1, cycle := s.cycle + 1, status := .halted } :=
    (step_of_holds hr hi).trans (exec_hcf s.pastBoundary)
  exact ⟨_, hhalt, rfl, step_of_not_running (by simp)⟩

end Sys2Proof.Machine
end

section
/-! PROOFS. The statements about the devices (46_devices.md): the OUTPUT relay, the registers DST, SRC and GO, the timed pokes, the
transfer for every DST, and that the engine moves only by this handshake. -/

namespace Sys2Proof.Machine

/-! ### A store, by how its write ends -/

section Store
variable {i : Instr} {opnd x v : Byte} {s t : State} {f : Fault}

/-- A store whose write is done retires over what the write did (R126). -/
theorem exec_store_done (h : (i, x, v) ∈ storeForms opnd s) (hw : memWrite (s.now i.cost) x v s = .done t) :
    exec i s = .next (t.retireTo (t.seqPc i) i.cost) := by
  rw [exec_store h, hw]

/-- A store whose write faults takes that fault over what the write had done (R126, R315). -/
theorem exec_store_raised (h : (i, x, v) ∈ storeForms opnd s) (hw : memWrite (s.now i.cost) x v s = .raised f t) :
    exec i s = .next (t.setStatus (.faulted f)) := by
  rw [exec_store h, hw]

/-- The engine a store leaves is the engine its write left, whether it retires or faults. -/
theorem exec_store_engine (hi : isStore i = true) (h : exec i s = .next t) :
    ∃ x v, (memWrite (s.now i.cost) x v s).state.engine = t.engine := by
  obtain ⟨x, v, hdone, hraised⟩ := exec_isStore (s := s) hi
  refine ⟨x, v, ?_⟩
  cases hw : memWrite (s.now i.cost) x v s with
  | done u =>
    obtain rfl := Host.Outcome.next.inj ((hdone u hw).symm.trans h)
    rfl
  | raised g u =>
    obtain rfl := Host.Outcome.next.inj ((hraised g u hw).symm.trans h)
    rfl

end Store

/-! ### The engine over all instructions -/

/-- The engine after an accepted poke of 1 and its whole copy (R226, decision D13). -/
theorem Engine.idle_accept_of_one {e : Engine} {n : Nat} (h : e.index = 1) :
    (e.accept n).idle = { e with inProgress := false, index := 0, refCycle := n } := by
  rw [Engine.accept_of_one h]
  rfl

/-- Only a store moves the engine, and its write is what moves it. -/
theorem exec_engine_ne {i : Instr} {s t : State} (h : exec i s = .next t) (hne : t.engine ≠ s.engine) :
    isStore i = true ∧ ∃ x v, (memWrite (s.now i.cost) x v s).state.engine = t.engine := by
  cases hi : isStore i with
  | false => exact absurd (onlyStoresReachMemoryAndDevices i s t hi h).2.2 hne
  | true => exact ⟨rfl, exec_store_engine hi h⟩

/-- Settles O47: of the four ways a step goes only an executed instruction can move the engine (`step_cases`), then it is a store
(`exec_engine_ne`), and `memWrite_engine` lists what its write makes of the engine. -/
theorem engineMovesOnlyByTheHandshake : Obligations.EngineMovesOnlyByTheHandshake := by
  intro s t e e' hstep he he' hne
  have moved : t.engine ≠ s.engine := by
    rw [he, he']
    exact fun h => hne (Option.some.inj h)
  rcases step_cases hstep with ⟨-, rfl⟩ | ⟨-, -, rfl⟩ | ⟨-, f, -, rfl⟩ | ⟨-, i, hfetch, hexec⟩
  · exact absurd rfl moved
  · exact absurd rfl moved
  · exact absurd rfl moved
  · obtain ⟨hi, x, v, hw⟩ := exec_engine_ne hexec moved
    refine ⟨i, holds_of_fetch hfetch, hi, ?_⟩
    rcases memWrite_engine (s := s.pastBoundary) he (hw.trans he') with
      rfl | ⟨hidle, -, hdst⟩ | ⟨hidle, -, hsrc⟩ | ⟨hidle, -, hgo⟩ | ⟨-, ⟨harmed, -, htime⟩, hpoke⟩
    · exact absurd rfl hne
    · exact .inl ⟨hidle, .inl ⟨v, hdst⟩⟩
    · exact .inl ⟨hidle, .inr (.inl ⟨v, hsrc⟩)⟩
    · exact .inl ⟨hidle, .inr (.inr hgo)⟩
    · refine .inr ⟨harmed, htime, ?_⟩
      rcases hpoke with ⟨haccept, -⟩ | ⟨h1, hdone, -⟩
      · exact .inl haccept
      · exact .inr ⟨h1, hdone.trans (Engine.idle_accept_of_one h1)⟩

/-! ### OUTPUT, DST, SRC and GO -/

/-- Settles O32: the write path emits the byte at 0xF1, whatever the engine is, and the store retires over it. -/
theorem storeToOutputResults : Obligations.StoreToOutputResults := fun _ _ _ _ hform =>
  exec_store_done hform memWriteWith_output

section Registers
variable {copy : State → WriteResult} {now : Nat} {x v : Byte} {s : State} {e : Engine} (he : s.engine = some e)
include he

/-- R211: DST is writable while Idle. -/
theorem memWriteWith_dst_idle (hp : e.inProgress = false) :
    memWriteWith copy now 0xF2 v s = .done (s.setEngine { e with dst := v }) := by
  rw [memWriteWith_dst he, engineWriteDst, if_neg (by simp [hp])]

/-- R212: SRC is writable while Idle. -/
theorem memWriteWith_src_idle (hp : e.inProgress = false) :
    memWriteWith copy now 0xF3 v s = .done (s.setEngine { e with src := v }) := by
  rw [memWriteWith_src he, engineWriteSrc, if_neg (by simp [hp])]

/-- R214: GO arms an Idle engine. -/
theorem memWriteWith_go_idle (hp : e.inProgress = false) :
    memWriteWith copy now 0xF4 v s = .done (s.setEngine { e with inProgress := true, index := 5, refCycle := now }) := by
  rw [memWriteWith_go he, engineWriteGo, if_neg (by simp [hp])]

/-- R211 to R213: DST, SRC and GO are busy while Armed, for a store and for the copy itself (R232). -/
theorem memWriteWith_busy (hp : e.inProgress = true) (hx : x = 0xF2 ∨ x = 0xF3 ∨ x = 0xF4) :
    memWriteWith copy now x v s = .raised .engineBusy s := by
  rcases hx with rfl | rfl | rfl
  · rw [memWriteWith_dst he, engineWriteDst, if_pos hp]
  · rw [memWriteWith_src he, engineWriteSrc, if_pos hp]
  · rw [memWriteWith_go he, engineWriteGo, if_pos hp]

end Registers

/-- Settles O40: the rows of the write path at DST, SRC and GO, then the store over each. -/
theorem dstSrcWritesAndBusy : Obligations.DstSrcWritesAndBusy := by
  constructor
  · intro now x v s e he
    refine ⟨?_, ?_, memWriteWith_busy he⟩
    · rintro hp rfl
      exact memWriteWith_dst_idle he hp
    · rintro hp rfl
      exact memWriteWith_src_idle he hp
  · intro s opnd x v i e hform he
    refine ⟨?_, ?_, fun hp hx => ⟨_, exec_store_raised hform (memWriteWith_busy he hp hx), rfl, rfl⟩⟩
    · rintro hp rfl
      exact exec_store_done hform (memWriteWith_dst_idle he hp)
    · rintro hp rfl
      exact exec_store_done hform (memWriteWith_src_idle he hp)

/-- Settles O41: GO arms the Idle engine, and the store retires over it. -/
theorem goArmsTheEngine : Obligations.GoArmsTheEngine := fun _ _ _ _ _ hform he hp =>
  exec_store_done hform (memWriteWith_go_idle he hp)

/-! ### POKE, check by check (R220) -/

section Pokes
variable {copy : State → WriteResult} {now : Nat} {v : Byte} {s : State} {e : Engine} (he : s.engine = some e)
include he

/-- R221: a poke while Idle. -/
theorem memWriteWith_poke_idle (hp : e.inProgress = false) :
    memWriteWith copy now 0xF5 v s = .raised .engineNotArmed s := by
  rw [memWriteWith_poke he, engineWritePoke, if_pos (by simp [hp])]

variable (hp : e.inProgress = true)
include hp

/-- R222: a poke of another byte than the index. -/
theorem memWriteWith_poke_mismatch (hv : v ≠ e.index) :
    memWriteWith copy now 0xF5 v s = .raised .engineIndexMismatch s := by
  rw [memWriteWith_poke he, engineWritePoke, if_neg (by simp [hp]), if_pos hv]

/-- R223: a timed poke before its cycle. -/
theorem memWriteWith_poke_early (hv : v = e.index) (h5 : e.index ≠ 5) (ht : now < e.refCycle + 36) :
    memWriteWith copy now 0xF5 v s = .raised .engineTimingEarly s := by
  rw [memWriteWith_poke he, engineWritePoke, if_neg (by simp [hp]), if_neg (not_not_intro hv), if_pos ⟨h5, ht⟩]

/-- R224: a timed poke after its cycle. -/
theorem memWriteWith_poke_late (hv : v = e.index) (h5 : e.index ≠ 5) (ht : e.refCycle + 36 < now) :
    memWriteWith copy now 0xF5 v s = .raised .engineTimingLate s := by
  rw [memWriteWith_poke he, engineWritePoke, if_neg (by simp [hp]), if_neg (not_not_intro hv),
    if_neg (fun h => Nat.lt_asymm h.2 ht), if_pos ⟨h5, ht⟩]

end Pokes

/-- Settles O42: the first two checks of a poke, each the store's fault. -/
theorem wrongPokesFault : Obligations.WrongPokesFault := fun _ _ _ _ _ hform he =>
  ⟨fun hp => exec_store_raised hform (memWriteWith_poke_idle he hp),
   fun hp hv => exec_store_raised hform (memWriteWith_poke_mismatch he hp hv)⟩

/-- Settles O43: the two timing checks, then acceptance (`engineWritePoke_accepted`), where an index of 1 leaves the copy to come. -/
theorem pokesAreAcceptedExactlyOnTime : Obligations.PokesAreAcceptedExactlyOnTime := by
  intro s opnd v i e hform he hp hv
  refine ⟨fun h5 ht => ⟨_, exec_store_raised hform (memWriteWith_poke_early he hp hv h5 ht), rfl, rfl⟩,
    fun h5 ht => ⟨_, exec_store_raised hform (memWriteWith_poke_late he hp hv h5 ht), rfl, rfl⟩, fun hon => ?_⟩
  have haccepts : e.Accepts (s.now i.cost) v := ⟨hp, hv, hon.resolve_left⟩
  have hwrite := (memWriteWith_poke (copy := engineCopy (s.now i.cost)) he).trans (engineWritePoke_accepted haccepts)
  refine ⟨fun h1 => ?_, fun h1 => ?_⟩
  · exact exec_store_done hform (hwrite.trans (if_neg h1))
  · rw [memWrite, hwrite, if_pos h1, Engine.accept_of_one h1]
    rfl

/-! ### The transfer -/

/-- Byte `k` of what the copy writes (R230); it is byte `k` of `Engine.copyBytes` (`Engine.copyBytes_getD_eq`). -/
def Engine.copyByte (e : Engine) (k : Fin 32) : Byte := if e.src = e.magic then e.payload[k] else 0x00

theorem Engine.copyBytes_getD_eq (e : Engine) (k : Fin 32) : e.copyBytes.getD k 0x00 = e.copyByte k :=
  e.copyBytes_getD k k.isLt

/-- The copy writes at least two bytes, the first of them `copyByte 0`. -/
theorem Engine.copyBytes_eq_cons_cons (e : Engine) : ∃ b bs, e.copyBytes = e.copyByte 0 :: b :: bs := by
  have hlen := e.copyBytes_length
  have hfirst := e.copyBytes_getD_eq 0
  match hb : e.copyBytes with
  | [] => simp [hb] at hlen
  | [_] => simp [hb] at hlen
  | a :: b :: bs =>
    rw [hb] at hfirst
    exact ⟨b, bs, by rw [← hfirst]; rfl⟩

/-- After the first `n` bytes of the copy, all in storage: the form is kept, the bytes read as written, every address outside
them as before (R230). -/
theorem memRead_after_copy {s t : State} {e : Engine} {n : Nat} (hwf : s.mem.wf) (hn : n ≤ 32)
    (hend : e.dst.toNat + n ≤ 0xF0) (ht : t.mem = s.mem.load e.dst.toNat (e.copyBytes.take n)) :
    t.mem.wf ∧
    (∀ k : Fin 32, k.val < n → memRead t (e.dst + BitVec.ofNat 8 k) = .ok (e.copyByte k)) ∧
    ∀ y : Byte, y.toNat < e.dst.toNat ∨ e.dst.toNat + n ≤ y.toNat → memRead t y = memRead s y := by
  have hlen : (e.copyBytes.take n).length = n := by simp [hn]
  have hfits : e.dst.toNat + (e.copyBytes.take n).length ≤ 0xF0 := hlen.symm ▸ hend
  refine ⟨ht ▸ Memory.load_wf hfits hwf, fun k hk => ?_, fun y hy => ?_⟩
  · have haddr : (e.dst + BitVec.ofNat 8 k).toNat = e.dst.toNat + k := by
      rw [BitVec.toNat_add, BitVec.toNat_ofNat]
      omega
    have hbyte : (e.copyBytes.take n).getD k 0x00 = e.copyByte k := by
      rw [← e.copyBytes_getD_eq k, List.getD_eq_getElem?_getD, List.getD_eq_getElem?_getD, List.getElem?_take_of_lt hk]
    rw [memRead_storage (by omega), haddr, ht, Memory.read_load hfits hwf, if_pos (by omega), Nat.add_sub_cancel_left, hbyte]
  · by_cases hs : y.toNat < 0xF0
    · rw [memRead_storage hs, memRead_storage hs, ht, Memory.read_load hfits hwf, if_neg (by omega)]
    · rw [memRead_device (by omega), memRead_device (by omega)]

section Transfer
variable {s : State} {opnd : Byte} {i : Instr} {e : Engine}

/-- The state in which the copy of an accepted poke of 1 begins: still Armed, index 0, the cycle recorded (R226, decision D10). -/
def State.copyStart (s : State) (e : Engine) (now : Nat) : State := s.setEngine { e with index := 0, refCycle := now }

theorem State.copyStart_eq {now : Nat} (h1 : e.index = 1) : s.setEngine (e.accept now) = s.copyStart e now := by
  rw [Engine.accept_of_one h1, State.copyStart]

variable (hform : (i, 0xF5, 1) ∈ storeForms opnd s) (he : s.engine = some e) (hp : e.inProgress = true) (h1 : e.index = 1)
  (ht : s.now i.cost = e.refCycle + 36)
include hform he hp h1 ht

/-- A copy made whole: Idle, and the store retires (R226). -/
theorem exec_transfer_done {t : State}
    (h : copyLoop (copyWrite (s.now i.cost)) e.dst e.copyBytes (s.copyStart e (s.now i.cost)) = .done t) :
    exec i s = .next (t.endTransfer.retireTo (t.seqPc i) i.cost) := by
  rw [exec_completing_poke hform he hp h1 ht, State.copyStart_eq h1, h]

/-- A copy that faults: the fault is taken over what the copy did (R231). -/
theorem exec_transfer_raised {f : Fault} {t : State}
    (h : copyLoop (copyWrite (s.now i.cost)) e.dst e.copyBytes (s.copyStart e (s.now i.cost)) = .raised f t) :
    exec i s = .next (t.setStatus (.faulted f)) := by
  rw [exec_completing_poke hform he hp h1 ht, State.copyStart_eq h1, h]

/-- A copy whose first write faults has done nothing when the fault is taken. -/
theorem exec_transfer_first_raised {f : Fault}
    (h : copyWrite (s.now i.cost) e.dst (e.copyByte 0) (s.copyStart e (s.now i.cost)) =
      .raised f (s.copyStart e (s.now i.cost))) :
    exec i s = .next ((s.copyStart e (s.now i.cost)).setStatus (.faulted f)) := by
  obtain ⟨b, bs, hbytes⟩ := e.copyBytes_eq_cons_cons
  refine exec_transfer_raised hform he hp h1 ht ?_
  rw [hbytes]
  exact copyLoop_cons_raised h

/-- R232, row 0xF1: the first byte goes to the output, the second to a busy DST. -/
theorem exec_transfer_output (hd : e.dst = 0xF1) :
    exec i s = .next (((s.copyStart e (s.now i.cost)).emit (e.copyByte 0)).setStatus (.faulted .engineBusy)) := by
  obtain ⟨b, bs, hbytes⟩ := e.copyBytes_eq_cons_cons
  refine exec_transfer_raised hform he hp h1 ht ?_
  rw [hbytes, hd, copyLoop_cons_done (w := copyWrite _) memWriteWith_output]
  exact copyLoop_cons_raised (memWriteWith_busy rfl hp (.inl rfl))

end Transfer

/-- R232, row 0xF5: a poke by the copy itself is of the wrong index unless its byte is 0, and then it comes 36 cycles early. -/
theorem copyWrite_poke {now : Nat} {b : Byte} {s : State} {e : Engine} (hp : e.inProgress = true) :
    copyWrite now 0xF5 b (s.copyStart e now) =
      .raised (if b ≠ 0 then .engineIndexMismatch else .engineTimingEarly) (s.copyStart e now) := by
  split
  · rename_i hb
    exact memWriteWith_poke_mismatch rfl hp hb
  · rename_i hb
    exact memWriteWith_poke_early rfl hp (not_not.mp hb) (by simp) (by simp)

/-- Settles O44: all 32 bytes stay in RAM (`copyLoop_all_ram`), and `memRead_after_copy` says how the memory reads then. -/
theorem transferCompletes : Obligations.TransferCompletes := by
  intro s opnd i e hform he hp h1 ht hlo hhi
  have hend : e.dst.toNat + e.copyBytes.length ≤ 0xF0 := by rw [Engine.copyBytes_length]; omega
  refine ⟨_, exec_transfer_done hform he hp h1 ht (copyLoop_all_ram hlo hend), rfl, fun hwf => ?_⟩
  have hall : e.copyBytes.take 32 = e.copyBytes := List.take_of_length_le e.copyBytes_length.le
  exact And.imp_right (And.imp_left fun hbytes k => hbytes k k.isLt)
    (memRead_after_copy hwf le_rfl (by omega) (by rw [hall]; rfl))

/-- Settles O45, row by row of R232: where the first write faults nothing was written; over the end of RAM the bytes that fit
were (`copyLoop_over_end`); at OUTPUT one byte was sent. -/
theorem transferFaultsByDestination : Obligations.TransferFaultsByDestination := by
  intro s opnd i e hform he hp h1 ht left
  have first {f : Fault} := exec_transfer_first_raised (f := f) hform he hp h1 ht
  refine ⟨fun hrom => first (memWriteWith_rom hrom), fun hlo hhi => ?_, fun hun => first (memWriteWith_unmapped hun),
    exec_transfer_output hform he hp h1 ht, fun hbusy => first (memWriteWith_busy rfl hp hbusy), fun hpoke => ?_⟩
  · have hram : 0x80 ≤ e.dst.toNat ∧ e.dst.toNat ≤ 0xF0 := by omega
    have hend : 0xF0 < e.dst.toNat + e.copyBytes.length := by rw [Engine.copyBytes_length]; omega
    refine ⟨_, exec_transfer_raised hform he hp h1 ht (copyLoop_over_end hram.1 hram.2 hend), rfl, fun hwf => ?_⟩
    exact And.imp_right (And.imp (fun hbytes k hk => hbytes k (by omega)) fun hrest y hy => hrest y (.inl hy))
      (memRead_after_copy (n := 0xF0 - e.dst.toNat) hwf (by omega) (by omega) rfl)
  · have hfirst : e.copyByte 0 ≠ 0 ↔ e.src = e.magic ∧ e.payload[(0 : Fin 32)] ≠ 0x00 := by
      unfold Engine.copyByte
      split <;> simp_all
    have hexec := first (hpoke ▸ copyWrite_poke hp)
    simp only [hfirst] at hexec
    exact hexec

end Sys2Proof.Machine
end

section
/-! PROOFS. The statements about exceptions (60_exceptions.md): how a run ends, what a fault leaves behind, and the stores that
always fault. -/

namespace Sys2Proof.Machine

/-! ### How an instruction of a running machine ends -/

/-- The status a retired instruction leaves a running machine in is no fault. -/
theorem faulted_ne_retired {i : Instr} {s : State} {f : Fault} (hr : s.status = .running) :
    RunStatus.faulted f ≠ if i = .hcf then .halted else s.status := by
  rw [hr]
  split <;> simp

section Exec
variable {i : Instr} {s t : State} {f : Fault} (hr : s.status = .running) (h : exec i s = .next t)
include hr h

/-- An instruction leaves a running machine faulted, or halted if it is HCF, or else running (R170, R314). -/
theorem exec_status : (∃ f, t.status = .faulted f) ∨ t.status = if i = .hcf then .halted else .running := by
  obtain ⟨-, -, -, -, -, -, ⟨f, hf, -⟩ | ⟨-, -, hst⟩⟩ := exec_frame h
  · exact .inl ⟨f, hf⟩
  · exact .inr (hr ▸ hst)

/-- No instruction cancels the run. -/
theorem exec_status_ne_cancelled : t.status ≠ .cancelled := by
  rcases exec_status hr h with ⟨f, hf⟩ | hst
  · simp [hf]
  · rw [hst]
    split <;> simp

/-- HCF is the one instruction that halts, and it never faults (R170). -/
theorem exec_status_halted_iff : t.status = .halted ↔ i = .hcf := by
  constructor
  · intro hhalt
    rcases exec_status hr h with ⟨f, hf⟩ | hst
    · cases hf.symm.trans hhalt
    · by_contra hi
      rw [if_neg hi, hhalt] at hst
      cases hst
  · rintro rfl
    obtain rfl := Host.Outcome.next.inj ((exec_hcf s).symm.trans h)
    rfl

variable (hf : t.status = .faulted f)
include hf

/-- R314: an instruction that faults leaves A, B, C, pc and cycle as they were. -/
theorem exec_fault_registers : t.a = s.a ∧ t.b = s.b ∧ t.c = s.c ∧ t.pc = s.pc ∧ t.cycle = s.cycle := by
  obtain ⟨-, -, -, -, -, -, ⟨g, -, hregs⟩ | ⟨-, -, hst⟩⟩ := exec_frame h
  · exact hregs
  · exact absurd (hf.symm.trans hst) (faulted_ne_retired hr)

/-- R314, R315: an instruction that faults changes the status alone, unless it is a store whose poke of 1 was accepted and whose
copy then faulted. -/
theorem exec_fault_cases :
    t = s.setStatus (.faulted f) ∨
    (isStore i = true ∧ ∃ e, s.engine = some e ∧ e.inProgress = true ∧ e.index = 1 ∧
      t.engine = some { e with index := 0, refCycle := s.now i.cost }) := by
  cases hi : isStore i with
  | false =>
    obtain ⟨u, hu, -, -, -, -, -, hend⟩ := exec_not_store (s := s) hi
    obtain rfl := Host.Outcome.next.inj (hu.symm.trans h)
    rcases hend with rfl | ⟨-, -, hst⟩
    · exact .inl (congrArg s.setStatus hf)
    · exact absurd (hf.symm.trans hst) (faulted_ne_retired hr)
  | true =>
    obtain ⟨x, v, hdone, hraised⟩ := exec_isStore (s := s) hi
    cases hw : memWrite (s.now i.cost) x v s with
    | done u =>
      obtain rfl := Host.Outcome.next.inj ((hdone u hw).symm.trans h)
      have hfr := memWrite_frame (now := s.now i.cost) (x := x) (v := v) (s := s)
      rw [hw] at hfr
      cases (hfr.status.trans hr).symm.trans hf
    | raised g u =>
      obtain rfl := Host.Outcome.next.inj ((hraised g u hw).symm.trans h)
      rcases memWrite_raised hw with rfl | ⟨e, he, haccepts, h1, hu⟩
      · exact .inl (congrArg u.setStatus hf)
      · exact .inr ⟨rfl, e, he, haccepts.1, h1, hu.trans (congrArg some (Engine.accept_of_one h1))⟩

end Exec

/-- Settles O16: of the ways a running machine steps (`step_cases`), the cancelled boundary alone cancels, and an executed HCF
alone halts. -/
theorem runEndsOnlyAsTheDriverSays : Obligations.RunEndsOnlyAsTheDriverSays := by
  intro s t hr h
  rcases step_cases h with ⟨hn, -⟩ | ⟨-, hc, rfl⟩ | ⟨⟨-, hc⟩, f, hfetch, rfl⟩ | ⟨⟨-, hc⟩, i, hfetch, hexec⟩
  · exact absurd hr hn
  · simp [hc]
  · have hno : memRead s s.pc ≠ .ok 0xFF := fun hm => by
      cases (fetch_of_holds (s := s.pastBoundary) (holds_hcf.mpr hm)).symm.trans hfetch
    simpa [hc] using hno
  · have hi : i = .hcf ↔ memRead s s.pc = .ok 0xFF := by
      refine ⟨?_, fun hm => ?_⟩
      · rintro rfl
        exact holds_hcf.mp (holds_of_fetch hfetch)
      · have hhcf : fetch s.pastBoundary = .ok .hcf := fetch_of_holds (holds_hcf.mpr hm)
        exact Except.ok.inj (hfetch.symm.trans hhcf)
    simp [hc, exec_status_ne_cancelled (s := s.pastBoundary) hr hexec,
      exec_status_halted_iff (s := s.pastBoundary) hr hexec, hi]

/-- Settles O17: a fault of the fetch sets the status over the passed boundary, and `exec_fault_registers` and `exec_fault_cases`
say what a fault of the instruction leaves. -/
theorem faultsArePrecise : Obligations.FaultsArePrecise := by
  intro s t f hr h hf
  rcases step_cases h with ⟨hn, -⟩ | ⟨-, -, rfl⟩ | ⟨-, g, -, rfl⟩ | ⟨-, i, hfetch, hexec⟩
  · exact absurd hr hn
  · cases hf
  · obtain rfl := RunStatus.faulted.inj hf
    exact ⟨rfl, rfl, rfl, rfl, rfl, .inl rfl⟩
  · obtain ⟨ha, hb, hc, hpc, hcycle⟩ := exec_fault_registers (s := s.pastBoundary) hr hexec hf
    refine ⟨ha, hb, hc, hpc, hcycle, (exec_fault_cases (s := s.pastBoundary) hr hexec hf).imp_right ?_⟩
    rintro ⟨hi, e, hcopy⟩
    exact ⟨i, e, holds_of_fetch hfetch, hi, hcopy⟩

/-! ### The stores that always fault -/

/-- R302, R232: a copy with DST in ROM faults at its first write, with nothing written. -/
theorem engineCopy_rom {now : Nat} {s : State} {e : Engine} (he : s.engine = some e) (hd : e.dst.toNat < 0x80) :
    engineCopy now s = .raised .protectedWrite s := by
  obtain ⟨b, bs, hbytes⟩ := e.copyBytes_eq_cons_cons
  simp only [engineCopy, he, hbytes]
  exact copyLoop_cons_raised (memWriteWith_rom hd)

/-- Settles O33: the write path's row for ROM, taken by a store, by `MemWrite` itself and by the first write of a copy. -/
theorem writesToRomFault : Obligations.WritesToRomFault :=
  ⟨fun _ _ _ _ _ hform hx => ⟨_, exec_store_raised hform (memWriteWith_rom hx), rfl, rfl⟩,
   fun _ _ _ _ hx => memWriteWith_rom hx,
   fun _ _ _ he hd => engineCopy_rom he hd⟩

/-- R22: the base variant has no engine. -/
theorem State.engine_eq_none_of_base {s : State} (h : s.variant = .base) : s.engine = none := by
  cases he : s.engine with
  | none => rfl
  | some e => simp [State.variant, he] at h

/-- R46: a write to an unmapped address of the variant raises IllegalAddress and changes nothing. -/
theorem memWrite_unmapped {now : Nat} {x v : Byte} {s : State}
    (h : x = 0xF0 ∨ 0xF6 ≤ x.toNat ∨ (s.variant = .base ∧ 0xF2 ≤ x.toNat ∧ x.toNat ≤ 0xF5)) :
    memWrite now x v s = .raised .illegalAddress s := by
  rcases h with hx | hx | ⟨hbase, hlo, -⟩
  · exact memWriteWith_unmapped (.inl hx)
  · exact memWriteWith_unmapped (.inr hx)
  · refine memWriteWith_base (State.engine_eq_none_of_base hbase) (by omega) ?_
    rintro rfl
    simp at hlo

/-- Settles O34: the store takes the fault of `memWrite_unmapped` over the state it began in. -/
theorem storesToUnmappedFault : Obligations.StoresToUnmappedFault := fun _ _ _ _ _ hform hx =>
  exec_store_raised hform (memWrite_unmapped hx)

/-! ### Cancellation -/

/-- Settles O12: the head of the input is the level at the boundary, and `step_of_cancelled` says what it does there. -/
theorem cancellationStopsARunningMachine : Obligations.CancellationStopsARunningMachine := by
  intro s rest hr hin
  have hc : s.cancelNow = true := by rw [State.cancelNow, hin, List.headD_cons]
  exact step_of_cancelled hr hc

end Sys2Proof.Machine
end

section
/-! PROOFS. What construction refuses (70_reset_and_hazards.md R401). -/

namespace Sys2Proof.Machine

/-- R401: the images that fail the check are those longer than ROM. -/
theorem romImageOk_eq_false_iff {image : List Byte} : romImageOk image = false ↔ 128 < image.length := by
  rw [romImageOk, decide_eq_false_iff_not]
  exact Nat.not_le

/-- R401: the image is the first of the two checks of construction, so its refusal does not depend on the seed. -/
theorem construct_of_romImage_not_ok {x : Inputs} (h : romImageOk x.romImage = false) :
    construct x = .refused .romImageTooLong := by
  rw [construct, if_pos (by rw [h]; rfl)]

/-- Settles O3: an image of more than 128 bytes fails the first check of construction. -/
theorem oversizedImageIsRefused : Obligations.OversizedImageIsRefused := fun _ h =>
  construct_of_romImage_not_ok (romImageOk_eq_false_iff.mpr h)

end Sys2Proof.Machine
end
